-- ==== Sys2Proof/Word.lean ====
section
/-! DEFINITION. The words of the machine and the two width changes the address rules use (00_scope.md R7 to R9, R14). -/

namespace Sys2Proof

/-- The contents of a general register: 64 bits (00_scope.md R7, `XLEN = 64`). -/
abbrev Word := BitVec 64

/-- An effective address or a program-counter value: 32 bits (00_scope.md R9, `EA_BITS = 32`; 10_state.md R23, `PC_BITS = 32`). -/
abbrev Addr := BitVec 32

/-- One instruction word: 32 bits (00_scope.md R8, `ILEN = 32`). -/
abbrev InsnWord := BitVec 32

/-- One byte of memory (10_state.md R28). -/
abbrev Byte := BitVec 8

/-- The number of a general register, r0 to r31 (10_state.md R20, `NGPR = 32`). -/
abbrev Reg := Fin 32

/-- `trunc_32` of 00_scope.md R14: the low 32 bits, the snapshots' `as u32`. -/
def trunc32 (v : Word) : Addr := v.truncate 32

/-- `zext_64` of 00_scope.md R14 on an address: the snapshots' `ea as u64`. -/
def zext64 (a : Addr) : Word := a.zeroExtend 64

end Sys2Proof
end

