-- ==== Sys2Proof/Syntax.lean ====
section
/-! DEFINITION. The instructions: one constructor per row of spec/opcode_table.json (30_encoding.md R67). -/

namespace Sys2Proof

/-- The four store-doubleword instructions. `rs` is the register whose value is stored (C7), `ra` the base field, `rb` the index register;
`ds` is the BYTE displacement `D`, the assembler's `ds` (30_encoding.md R65, R72; C3; log 21). -/
inductive Instr where
  | std   (rs ra : Reg) (ds : Int)  -- Store Doubleword: std RS, ds(RA0)
  | stdu  (rs ra : Reg) (ds : Int)  -- Store Doubleword with Update: stdu RS, ds(RA)
  | stdux (rs ra rb : Reg)          -- Store Doubleword with Update Indexed: stdux RS, RA, RB
  | stdx  (rs ra rb : Reg)          -- Store Doubleword Indexed: stdx RS, RA0, RB
deriving DecidableEq, Repr

end Sys2Proof
end

