-- ==== Sys2Proof/WellFormed.lean ====
section
/-! DEFINITION. Which instruction terms an encoding can hold (30_encoding.md R65, R72). -/

namespace Sys2Proof

/-- "Assemblers verify the byte displacement is a multiple of 4" (30_encoding.md R72). -/
def dispAligned (ds : Int) : Bool := ds % 4 == 0

/-- The displacement fits the 14-bit field: −32768 to +32764 (30_encoding.md R65, R72). -/
def dispInRange (ds : Int) : Bool := decide (-32768 ≤ ds) && decide (ds ≤ 32764)

/-- An instruction that has an encoding. `stdu` and `stdux` with RA field 0 have one: they decode, and the step decides what
they do (30_encoding.md R69). -/
def Instr.wf : Instr → Bool
  | .std _ _ ds => dispAligned ds && dispInRange ds
  | .stdu _ _ ds => dispAligned ds && dispInRange ds
  | .stdux _ _ _ => true
  | .stdx _ _ _ => true

end Sys2Proof
end

