-- ==== Sys2Proof/Decode.lean ====
section
/-! DEFINITION. The decoder, total on every word and on any bytes, and the encoder (30_encoding.md R60 to R73). -/

namespace Sys2Proof

/-- What the decoder answers. -/
inductive Decoded where
  | instr (i : Instr)   -- the word is one of the four instructions
  | undecoded           -- `Undecoded`: the word matches no row of the opcode map (30_encoding.md R68, R70)
  | truncated           -- fewer than the four bytes of one instruction word
deriving DecidableEq, Repr

/-- `RS = insn[25:21]` (30_encoding.md R63). -/
def fieldRS (w : InsnWord) : Reg := (w.extractLsb' 21 5).toFin

/-- `RA = insn[20:16]` (30_encoding.md R63). -/
def fieldRA (w : InsnWord) : Reg := (w.extractLsb' 16 5).toFin

/-- `RB = insn[15:11]`, X form (30_encoding.md R63). -/
def fieldRB (w : InsnWord) : Reg := (w.extractLsb' 11 5).toFin

/-- `DS = insn[15:2]`, DS form (30_encoding.md R63). -/
def fieldDS (w : InsnWord) : BitVec 14 := w.extractLsb' 2 14

/-- The byte displacement: the DS field with two zero bits appended, read as a signed number (30_encoding.md R65). -/
def fieldDisp (w : InsnWord) : Int := (fieldDS w ++ 0#2).toInt

/-- One row of the opcode map: a word `w` is the instruction exactly when `w & mask == match` (30_encoding.md R67). -/
structure OpcodeRow where
  mask    : InsnWord
  pattern : InsnWord
  build   : InsnWord → Instr

/-- The word matches the row. -/
def OpcodeRow.matches (r : OpcodeRow) (w : InsnWord) : Bool := (w &&& r.mask) == r.pattern

/-- `std`: DS form, primary opcode 62, XO 0. -/
def rowStd : OpcodeRow := ⟨0xFC000003#32, 0xF8000000#32, fun w => .std (fieldRS w) (fieldRA w) (fieldDisp w)⟩

/-- `stdu`: DS form, primary opcode 62, XO 1. -/
def rowStdu : OpcodeRow := ⟨0xFC000003#32, 0xF8000001#32, fun w => .stdu (fieldRS w) (fieldRA w) (fieldDisp w)⟩

/-- `stdux`: X form, primary opcode 31, XO 181, Rc 0 (the Rc bit is part of the match: R70). -/
def rowStdux : OpcodeRow := ⟨0xFC0007FF#32, 0x7C00016A#32, fun w => .stdux (fieldRS w) (fieldRA w) (fieldRB w)⟩

/-- `stdx`: X form, primary opcode 31, XO 149, Rc 0. -/
def rowStdx : OpcodeRow := ⟨0xFC0007FF#32, 0x7C00012A#32, fun w => .stdx (fieldRS w) (fieldRA w) (fieldRB w)⟩

/-- The opcode map of 30_encoding.md R67. -/
def opcodeMap : List OpcodeRow := [rowStd, rowStdu, rowStdux, rowStdx]

/-- The first row of a list that a word matches gives the instruction; none gives `Undecoded` (30_encoding.md R68). -/
def decodeWith : List OpcodeRow → InsnWord → Decoded
  | [], _ => .undecoded
  | r :: rs, w => if r.matches w then .instr (r.build w) else decodeWith rs w

/-- The decoder of one instruction word. -/
def decode (w : InsnWord) : Decoded := decodeWith opcodeMap w

/-- The four bytes of an instruction word as `TEXT` holds them, most significant first (20_memory.md R57). -/
def wordBytes (w : InsnWord) : List Byte :=
  [w.extractLsb' 24 8, w.extractLsb' 16 8, w.extractLsb' 8 8, w.extractLsb' 0 8]

/-- The instruction word that four bytes make, the first most significant (20_memory.md R57). -/
def wordOfBytes (b0 b1 b2 b3 : Byte) : InsnWord := b0 ++ b1 ++ b2 ++ b3

/-- The decoder on bytes: exactly one 32-bit word is read (30_encoding.md R60). -/
def decodeBytes : List Byte → Decoded
  | b0 :: b1 :: b2 :: b3 :: _ => decode (wordOfBytes b0 b1 b2 b3)
  | _ => .truncated

/-- The instruction read from the bits of a row of the opcode table: bit 0 is the least significant bit of the one 32-bit word;
bits from `nbits` up are zero. -/
def decodeTableWord (nbits w : Nat) : Option Instr :=
  match decodeBytes (wordBytes (BitVec.ofNat 32 (w % 2 ^ nbits))) with
  | .instr i => some i
  | .undecoded => none
  | .truncated => none

/-- A register number put into the field whose least significant bit is `lsb`. -/
def putReg (r : Reg) (lsb : Nat) : InsnWord := (BitVec.ofFin r : BitVec 5).zeroExtend 32 <<< lsb

/-- `ds & 0xFFFC`, with `ds` taken as a 16-bit two's-complement number (30_encoding.md R73). -/
def putDisp (ds : Int) : InsnWord := (BitVec.ofInt 16 ds &&& 0xFFFC#16).zeroExtend 32

/-- The encoder, written from 30_encoding.md R73. -/
def encode : Instr → InsnWord
  | .std rs ra ds => 0xF8000000#32 ||| putReg rs 21 ||| putReg ra 16 ||| putDisp ds
  | .stdu rs ra ds => 0xF8000001#32 ||| putReg rs 21 ||| putReg ra 16 ||| putDisp ds
  | .stdux rs ra rb => 0x7C00016A#32 ||| putReg rs 21 ||| putReg ra 16 ||| putReg rb 11
  | .stdx rs ra rb => 0x7C00012A#32 ||| putReg rs 21 ||| putReg ra 16 ||| putReg rb 11

/-- The bytes of an encoded instruction as `TEXT` holds them. -/
def encodeBytes (i : Instr) : List Byte := wordBytes (encode i)

/-- The assembler: an instruction whose displacement passes its checks gives a word (30_encoding.md R72). -/
def assemble (i : Instr) : Option InsnWord := if i.wf then some (encode i) else none

/-- A general register as the assembler writes it (30_encoding.md R71). -/
def regName (r : Reg) : String := "r" ++ Nat.repr r.val

/-- The operand of an RA0 position: `0` when the field is 0, a register name otherwise (30_encoding.md R71, D25). -/
def baseName (r : Reg) : String := if r = 0 then "0" else regName r

/-- A displacement as a signed decimal number (30_encoding.md R72). -/
def dispName (ds : Int) : String := if ds < 0 then "-" ++ Nat.repr ds.natAbs else Nat.repr ds.natAbs

/-- The assembler text of an instruction, its operands separated by commas (30_encoding.md R71). -/
def assemblerText : Instr → String
  | .std rs ra ds => "std " ++ regName rs ++ ", " ++ dispName ds ++ "(" ++ baseName ra ++ ")"
  | .stdu rs ra ds => "stdu " ++ regName rs ++ ", " ++ dispName ds ++ "(" ++ regName ra ++ ")"
  | .stdux rs ra rb => "stdux " ++ regName rs ++ ", " ++ regName ra ++ ", " ++ regName rb
  | .stdx rs ra rb => "stdx " ++ regName rs ++ ", " ++ baseName ra ++ ", " ++ regName rb

end Sys2Proof
end

