-- ==== Sys2Proof/Config.lean ====
section
/-! DEFINITION. What is fixed for a machine or for a run and is no state (00_scope.md R7 to R12, 10_state.md R31), and the one free value. -/

namespace Sys2Proof

/-- `INVALID_FORM_POLICY` of 00_scope.md R12: what `stdu` and `stdux` with RA field 0 do (30_encoding.md R69, D7). -/
inductive InvalidFormPolicy where
  | refuse    -- the step is refused with reason InvalidFormRA0: the spec's own choice
  | snapshot  -- the step runs with x[0] as an ordinary base, as the frozen snapshot does
deriving DecidableEq, Repr

/-- `STORE_ATOMICITY` of 00_scope.md R12 (20_memory.md R47, D11): whether an 8-byte store is one atomic write. -/
inductive StoreAtomicity where
  | bytes  -- the eight byte writes may become visible to other agents in any order and at different times: the default (D11)
  | whole  -- the bytes of one store become visible to other agents together
deriving DecidableEq, Repr

/-- `MEMORY_MODEL` of 00_scope.md R12 (20_memory.md R52, D12): the order in which one agent's stores are seen by another (log 12). -/
inductive MemoryModel where
  | anyOrder      -- every reordering of stores to different addresses: the default (D12)
  | programOrder  -- an agent's stores become visible in the order it made them
deriving DecidableEq, Repr

/-- `RESERVATION_GRANULE` of 00_scope.md R12 (20_memory.md R49, D14): the size and the alignment, in bytes, of the unit a reservation covers. Granule `g` starts at
`g` times the alignment (log 14). -/
structure Granule where
  size  : Nat
  align : Nat
deriving DecidableEq, Repr

/-- Byte `a` lies in granule number `g`. -/
def Granule.covers (u : Granule) (g a : Nat) : Bool := decide (g * u.align ≤ a) && decide (a < g * u.align + u.size)

/-- One range of byte addresses of `MEM_MAP` (20_memory.md R50): `base` to `base + size - 1`. -/
structure Region where
  base : Nat
  size : Nat
deriving DecidableEq, Repr

/-- The byte at `a` lies in the region. -/
def Region.contains (r : Region) (a : Nat) : Bool := decide (r.base ≤ a) && decide (a < r.base + r.size)

namespace Config

/-- The size of the address space in bytes: addresses `0x00000000` to `0xFFFFFFFF` (20_memory.md R40). -/
def spaceSize : Nat := 4294967296

/-- Bytes of one instruction word (00_scope.md R8). -/
def insnBytes : Nat := 4

/-- Bytes of the one access width, the doubleword (20_memory.md R47). -/
def accessBytes : Nat := 8

/-- `CACHE_LINE = 128` (00_scope.md R10). No meaning depends on it. -/
def cacheLine : Nat := 128

/-- How many cache lines a doubleword store at `ea` accesses: cost only (20_memory.md R56, 70_reset_and_hazards.md R124).
No meaning depends on it. -/
def lineAccesses (ea : Nat) : Nat :=
  if ea / cacheLine = (ea + (accessBytes - 1)) / cacheLine then 1 else 2

/-- FREE VALUE (log 15). Draw `n`: whether the reservation (agent, granule), touched only by bytes `EA + 1` to `EA + 7` of a store,
is lost: "a draw, under no law" (20_memory.md R49, U9). -/
opaque resvDraw (n agent granule : Nat) : Bool

end Config

end Sys2Proof
end

