-- ==== Sys2Proof/Machine/Launch.lean ====
section
/-! DEFINITION. The values of the reset state that the spec leaves to `LAUNCH_STATE` (10_state.md R32, 70_reset_and_hazards.md R120): each is the
model's choice, named in a log entry. -/

namespace Sys2Proof.Machine

/-- DESIGN CHOICE (log 2): every general register holds zero. -/
def launchGpr : Vector Word 32 := Vector.replicate 32 0#64

/-- DESIGN CHOICE (log 3): the pc of program 1 of 95_test_vectors.md. -/
def launchPc : Addr := 0x00010000#32

/-- DESIGN CHOICE (log 4): `MEM_MAP` is the whole 32-bit space. -/
def launchMemMap : List Region := [⟨0, Config.spaceSize⟩]

/-- DESIGN CHOICE (log 6): `RESERVATION_TRACKING`. -/
def launchResvTracking : Bool := false

/-- DESIGN CHOICE (log 6): `RESERVATION_GRANULE`: 8 bytes, aligned to 8. -/
def launchGranule : Granule := ⟨8, 8⟩

/-- The spec's default where no value is given (D11; log 12): `STORE_ATOMICITY`. -/
def launchStoreAtomicity : StoreAtomicity := .bytes

/-- The spec's default where no value is given (D12; log 12): `MEMORY_MODEL`. -/
def launchMemoryModel : MemoryModel := .anyOrder

/-- The spec's own choice (30_encoding.md R69, D7; log 5): `INVALID_FORM_POLICY = refuse`. -/
def launchInvalidForm : InvalidFormPolicy := .refuse

/-- DESIGN CHOICE (log 9): a register whose width the source does not give holds zero. -/
def launchUnsized : Nat := 0

end Sys2Proof.Machine
end

