-- ==== Sys2Proof/Machine/State.lean ====
section
/-! DEFINITION. The state of the machine as plain data, the reasons a step can stop, and the state after reset (10_state.md; INVENTORY.md lists every field). -/

namespace Sys2Proof.Machine

/-- Bytes by address: strictly rising addresses, an unlisted address has no value (log 7). It holds data memory (10_state.md R28) and the
program text (20_memory.md R57). -/
abbrev Memory := List Host.Cell

/-- The faults of 60_exceptions.md R103. -/
inductive Fault where
  /-- Raised by every store some byte of which lies outside `MEM_MAP` (20_memory.md R50). Safe: the model stops. -/
  | memNotAdmitted
deriving DecidableEq, Repr

/-- The refusals of 60_exceptions.md R103, the end of a run, and the host's name for an instruction without a meaning. -/
inductive Refusal where
  /-- Raised by a step whose pc is not a multiple of 4 (10_state.md R23). Safe: the model stops. -/
  | pcMisaligned
  /-- Raised by a step some byte of whose word is outside `TEXT` (20_memory.md R57). Safe: the model stops. -/
  | fetchNotAdmitted
  /-- Raised by a step whose word is none of the four instructions (30_encoding.md R68). Safe: the model stops. -/
  | undecodedWord
  /-- Raised by `stdu` and `stdux` with RA field 0 under `INVALID_FORM_POLICY = refuse` (30_encoding.md R69). Safe: the model stops. -/
  | invalidFormRA0
  /-- Raised by every store with `EA > 0xFFFFFFF8` (20_memory.md R44). Safe: the model stops. -/
  | addressWrap
  /-- Raised by every store some byte of which lies in `TEXT` (20_memory.md R54). Safe: the model stops. -/
  | storeToText
  /-- Raised by every instruction at a pc whose `pc + 4` does not fit in 32 bits (10_state.md R23). Safe: the model stops. -/
  | pcWrap
  /-- Raised by a step of a machine every agent of which is at `END_PC`: an agent there "takes no further step" (70_reset_and_hazards.md R122; log 10). Safe: the model stops. -/
  | runEnded
  /-- Raised by nothing: every instruction has its meaning. Safe: the model stops. -/
  | notModelled (mnemonic : String)
deriving DecidableEq, Repr

/-- Why an agent's run ended before `END_PC` (60_exceptions.md R102, R107). -/
inductive Stop where
  | fault (f : Fault)
  | refuse (r : Refusal)
deriving DecidableEq, Repr

/-- The named fields of XER (10_state.md R25); their widths are not in the source (log 8). -/
structure Xer where
  ca : Nat
  ov : Nat
  so : Nat
deriving DecidableEq, Repr

/-- What each agent has of its own: general registers and pc, the snapshots' `ctx` (60_exceptions.md R112), and, by the model's choice, the condition register, XER and the floating-point and
vector registers, of which the spec does not say whether agents share them (DESIGN CHOICE, log 26). -/
structure Context where
  /-- General registers r0 to r31 (10_state.md R20). -/
  gpr : Vector Word 32
  /-- The program counter (10_state.md R23). -/
  pc  : Addr
  /-- The condition register, width not in the source (10_state.md R24; log 8). -/
  cr  : Nat
  /-- XER (10_state.md R25; log 8). -/
  xer : Xer
  /-- Floating-point registers, width not in the source (10_state.md R27; log 8). -/
  fpr : Vector Nat 32
  /-- Vector registers, width not in the source (10_state.md R27; log 8). -/
  vr  : Vector Nat 32
  /-- The fault or refusal that ended this agent's run while other agents went on (60_exceptions.md R107); the model's own (log 18). -/
  stop : Option Stop
deriving DecidableEq, Repr

/-- An agent that is not the one executing now: its number and its context (60_exceptions.md R112). -/
structure Parked where
  id  : Nat
  ctx : Context
deriving DecidableEq, Repr

/-- One member of `Resv`: an agent holds a reservation on a granule, given by its number (10_state.md R29; log 14). -/
structure Reservation where
  agent   : Nat
  granule : Nat
deriving DecidableEq, Repr

/-- A store by one of several agents whose bytes `cells` are not visible to the others yet (20_memory.md R47, R52; log 12). -/
structure PendingStore where
  agent : Nat
  cells : List Host.Cell
deriving DecidableEq, Repr

/-- One entry of the schedule (log 11, log 12). -/
inductive Turn where
  | run (agent : Nat)           -- that agent takes the next step (60_exceptions.md R112)
  | settle (agent addr : Nat)   -- the oldest waiting byte of that agent at that address becomes visible to all (20_memory.md R47)
deriving DecidableEq, Repr

/-- The parameters of a run (00_scope.md R12, 10_state.md R31): no step changes them (log 1). -/
structure Env where
  /-- `TEXT`: the program's bytes (20_memory.md R57). -/
  text : Memory
  /-- `MEM_MAP`: the addresses a store may write (20_memory.md R50). -/
  memMap : List Region
  /-- `END_PC` (70_reset_and_hazards.md R122); `none`: no end is given. -/
  endPc : Option Addr
  /-- `RESERVATION_TRACKING` (10_state.md R29). -/
  resvTracking : Bool
  /-- `RESERVATION_GRANULE`, size and alignment (20_memory.md R49). -/
  granule : Granule
  /-- `STORE_ATOMICITY` (20_memory.md R47). -/
  storeAtomicity : StoreAtomicity
  /-- `MEMORY_MODEL` (20_memory.md R52). -/
  memoryModel : MemoryModel
  /-- `INVALID_FORM_POLICY` (30_encoding.md R69). -/
  invalidForm : InvalidFormPolicy
deriving DecidableEq, Repr

/-- The machine. -/
structure State where
  /-- The executing agent's own state. -/
  ctx : Context
  /-- The executing agent's number (10_state.md R31). -/
  agent : Nat
  /-- The other agents; `NAGENTS` is one more than their number (60_exceptions.md R112). -/
  parked : List Parked
  /-- Data memory, shared (10_state.md R28). -/
  mem : Memory
  /-- Stores that are not visible to the other agents yet, oldest first; the model's own (log 12). -/
  pending : List PendingStore
  /-- The reservation table, shared (10_state.md R29). -/
  resv : List Reservation
  /-- The schedule; the model's own (log 11). -/
  turns : List Turn
  /-- Draws taken so far; the model's own counter for the free value `Config.resvDraw` (log 15). -/
  draws : Nat
  /-- The parameters of the run. -/
  env : Env
deriving DecidableEq, Repr

/-- The state after reset. The spec gives no reset value (10_state.md R32): every value is the model's choice (logs 1 to 12, 15 and 18). No program is
loaded: `TEXT` is empty (log 19). -/
def State.reset : State where
  ctx :=
    { gpr := launchGpr
      pc := launchPc
      cr := launchUnsized
      xer := ⟨launchUnsized, launchUnsized, launchUnsized⟩
      fpr := Vector.replicate 32 launchUnsized
      vr := Vector.replicate 32 launchUnsized
      stop := none }
  agent := 0
  parked := []
  mem := []
  pending := []
  resv := []
  turns := []
  draws := 0
  env :=
    { text := []
      memMap := launchMemMap
      endPc := none
      resvTracking := launchResvTracking
      granule := launchGranule
      storeAtomicity := launchStoreAtomicity
      memoryModel := launchMemoryModel
      invalidForm := launchInvalidForm }

end Sys2Proof.Machine
end

