-- ==== Sys2Proof/Machine/Operands.lean ====
section
/-! DEFINITION. General-register access, the operand forms and the effective address (10_state.md R20, 30_encoding.md R65, R66, 20_memory.md R41). -/

namespace Sys2Proof.Machine

/-- `x[r]`: general register `r` of the executing agent. No register is hard-wired (10_state.md R20). -/
def State.readGpr (s : State) (r : Reg) : Word := s.ctx.gpr[r]

/-- `x[r] <- v` (10_state.md R20). -/
def State.writeGpr (s : State) (r : Reg) (v : Word) : State :=
  { s with ctx := { s.ctx with gpr := s.ctx.gpr.set r v } }

/-- `(RA|0)`: the literal 64-bit zero when the RA field is 0, otherwise `x[RA]` (30_encoding.md R66, C1). -/
def State.baseOrZero (s : State) (ra : Reg) : Word := if ra = 0 then 0#64 else s.readGpr ra

/-- `D`, the byte displacement as a 64-bit value (30_encoding.md R65). -/
def dispWord (ds : Int) : Word := BitVec.ofInt 64 ds

/-- `EA <- trunc_32(base + offset)`: a 64-bit sum that wraps, of which the low 32 bits are kept; no carry and no overflow (20_memory.md R41, R87). -/
def effAddr (base offset : Word) : Addr := trunc32 (base + offset)

/-- EA of `std RS, ds(RA0)` (40_store_doubleword.md R81). -/
def State.eaStd (s : State) (ra : Reg) (ds : Int) : Addr := effAddr (s.baseOrZero ra) (dispWord ds)

/-- EA of `stdu RS, ds(RA)`: plain RA, no literal zero (40_store_doubleword.md R82, C2). -/
def State.eaStdu (s : State) (ra : Reg) (ds : Int) : Addr := effAddr (s.readGpr ra) (dispWord ds)

/-- EA of `stdux RS, RA, RB` (40_store_doubleword.md R83). -/
def State.eaStdux (s : State) (ra rb : Reg) : Addr := effAddr (s.readGpr ra) (s.readGpr rb)

/-- EA of `stdx RS, RA0, RB` (40_store_doubleword.md R84). -/
def State.eaStdx (s : State) (ra rb : Reg) : Addr := effAddr (s.baseOrZero ra) (s.readGpr rb)

/-- The word is an update form whose RA field is 0, "an invalid form", and the policy refuses it (30_encoding.md R69, D7). -/
def State.refusesForm (s : State) (ra : Reg) : Bool := (ra == 0) && (s.env.invalidForm == .refuse)

end Sys2Proof.Machine
end

