-- ==== Sys2Proof/Machine/Ops.lean ====
section
/-! DEFINITION. The named operations over memory, reservations, the program counter, the program text and the agents (20_memory.md, 60_exceptions.md R102 to R112).
The spec describes no exception entry and no return from one (60_exceptions.md R100, R106, R107), so there is no such operation here. -/

namespace Sys2Proof.Machine

/-! Byte memory. -/

/-- The canonical form: strictly rising addresses. An unlisted address has no value, so no listed entry can equal what it reads as (log 7). -/
abbrev Memory.wf (m : Memory) : Prop := m.Pairwise (fun c d => c.1 < d.1)

/-- The byte at an address; `none`: no value is known there (log 7). -/
def Memory.read : Memory → Nat → Option Byte
  | [], _ => none
  | c :: m, a => if c.1 = a then some c.2 else Memory.read m a

/-- The memory with byte `b` at address `a`, in canonical form. -/
def Memory.write : Memory → Nat → Byte → Memory
  | [], a, b => [(a, b)]
  | c :: m, a, b =>
    if a < c.1 then (a, b) :: c :: m
    else if c.1 = a then (a, b) :: m
    else c :: Memory.write m a b

/-- Several bytes written; where an address is listed twice the first listed byte is the one that stays. -/
def Memory.writeAll (m : Memory) : List Host.Cell → Memory
  | [] => m
  | c :: cs => Memory.write (Memory.writeAll m cs) c.1 c.2

/-- Byte `k` of a register value, counted from the most significant end: `v[63-8k : 56-8k]` (10_state.md R21). -/
def byteOf (v : Word) (k : Nat) : Byte := v.extractLsb' (56 - 8 * k) 8

/-- The eight offsets of a doubleword (20_memory.md R43). -/
def offsets : List Nat := [0, 1, 2, 3, 4, 5, 6, 7]

/-- The bytes of `MemWrite(EA, 8, v)`: `M[EA + k] <- v[63-8k : 56-8k]`, big-endian (20_memory.md R42, R43). -/
def storeCells (ea : Addr) (v : Word) : List Host.Cell := offsets.map (fun k => (ea.toNat + k, byteOf v k))

/-! What one agent sees of memory (20_memory.md R47, R52). -/

/-- The byte of a waiting store at an address, for the agent that made it. -/
def PendingStore.byteFor (p : PendingStore) (ag a : Nat) : Option Byte := if p.agent = ag then Memory.read p.cells a else none

/-- The youngest waiting byte of an agent at an address. -/
def lastPending (ag a : Nat) : List PendingStore → Option Byte
  | [] => none
  | p :: ps =>
    match lastPending ag a ps with
    | some b => some b
    | none => p.byteFor ag a

/-- The byte agent `ag` sees at `a`: its own youngest waiting byte, else memory (20_memory.md R52: "a store is therefore seen by every
later access of the same agent to the same bytes"). -/
def State.seenBy (s : State) (ag a : Nat) : Option Byte :=
  match lastPending ag a s.pending with
  | some b => some b
  | none => Memory.read s.mem a

/-- `MemRead(addr, 1)` of the executing agent (00_scope.md R14). -/
def State.readByte (s : State) (a : Nat) : Option Byte := s.seenBy s.agent a

/-- The machine has one agent and no write of an earlier agent is outstanding: memory is sequential in program order (20_memory.md R52). -/
def State.alone (s : State) : Bool := s.parked.isEmpty && s.pending.isEmpty

/-- `MemWrite(EA, 8, v)` (20_memory.md R43). With one agent the bytes are in memory at once; with several the executing agent sees them at once and
they become visible to the others at `settle` turns (20_memory.md R47, R52; log 12). -/
def State.memWrite (s : State) (ea : Addr) (v : Word) : State :=
  if s.alone then { s with mem := Memory.writeAll s.mem (storeCells ea v) }
  else { s with pending := s.pending ++ [⟨s.agent, storeCells ea v⟩] }

/-- The waiting stores split at the oldest one of agent `ag` that has a byte at `a`. -/
def splitPending (ag a : Nat) : List PendingStore → Option (List PendingStore × PendingStore × List PendingStore)
  | [] => none
  | p :: ps =>
    if (p.byteFor ag a).isSome then some ([], p, ps)
    else
      match splitPending ag a ps with
      | some (xs, q, ys) => some (p :: xs, q, ys)
      | none => none

/-- The bytes of a waiting store that become visible together with the one at `a` (`STORE_ATOMICITY`, 20_memory.md R47). -/
def Env.settling (e : Env) (a : Nat) (cells : List Host.Cell) : List Host.Cell :=
  match e.storeAtomicity with
  | .whole => cells
  | .bytes => cells.filter (fun c => c.1 == a)

/-- The bytes of a waiting store that go on waiting after the one at `a` became visible, as a store of their own if there is one. -/
def Env.leftWaiting (e : Env) (a : Nat) (p : PendingStore) : List PendingStore :=
  match e.storeAtomicity with
  | .whole => []
  | .bytes =>
    match p.cells.filter (fun c => c.1 != a) with
    | [] => []
    | c :: cs => [⟨p.agent, c :: cs⟩]

/-- Whether bytes of agent `ag` may become visible before its older stores `older` (`MEMORY_MODEL`, 20_memory.md R52): in program order only when it has none; in any order
unless one of the older stores still has a byte at one of their addresses. -/
def Env.mayOvertake (e : Env) (ag : Nat) (older : List PendingStore) (cells : List Host.Cell) : Bool :=
  match e.memoryModel with
  | .programOrder => older.all (fun q => q.agent != ag)
  | .anyOrder => older.all (fun q => cells.all (fun c => (q.byteFor ag c.1).isNone))

/-- The oldest waiting byte of agent `ag` at `a` becomes visible to all, with the rest of its store if stores are atomic. Where no such byte waits, or an older store of the agent must come
first, nothing happens (20_memory.md R47, R52; log 12). -/
def State.settle (s : State) (ag a : Nat) : State :=
  match splitPending ag a s.pending with
  | some (xs, p, ys) =>
    if s.env.mayOvertake ag xs (s.env.settling a p.cells) then
      { s with mem := Memory.writeAll s.mem (s.env.settling a p.cells), pending := xs ++ (s.env.leftWaiting a p ++ ys) }
    else s
  | none => s

/-! Reservations (20_memory.md R49). -/

/-- Whether one reservation outlives a store at `ea`: not one whose granule holds byte EA; one touched by `EA + 1` to `EA + 7` alone as draw `n` says; every
other one (20_memory.md R49). -/
def Env.survives (e : Env) (n : Nat) (ea : Addr) (r : Reservation) : Bool :=
  if e.granule.covers r.granule ea.toNat then false
  else if offsets.any (fun k => e.granule.covers r.granule (ea.toNat + k)) then !Config.resvDraw n r.agent r.granule
  else true

/-- `ReservationsInvalidate(EA)` (20_memory.md R49, 10_state.md R29): skipped when tracking is off or no agent holds a reservation. -/
def State.reservationsInvalidate (s : State) (ea : Addr) : State :=
  if s.env.resvTracking && !s.resv.isEmpty then
    { s with resv := s.resv.filter (s.env.survives s.draws ea), draws := s.draws + 1 }
  else s

/-! The checks of a store (60_exceptions.md R105, checks 6 to 9) and the program counter. -/

/-- The address is in `MEM_MAP` (20_memory.md R50). -/
def Env.inMap (e : Env) (a : Nat) : Bool := e.memMap.any (fun r => r.contains a)

/-- The address is in `TEXT` (20_memory.md R54). -/
def Env.inText (e : Env) (a : Nat) : Bool := (Memory.read e.text a).isSome

/-- The address may be written: in `MEM_MAP` and not in `TEXT` (20_memory.md R51). -/
def Env.storable (e : Env) (a : Nat) : Bool := e.inMap a && !e.inText a

/-- The eight bytes do not run past the top of the address space: `EA <= 0xFFFFFFF8` (20_memory.md R44). -/
def fitsSpace (ea : Addr) : Bool := decide (ea.toNat + 7 < Config.spaceSize)

/-- Some byte of the store lies in `TEXT` (20_memory.md R54). -/
def Env.touchesText (e : Env) (ea : Addr) : Bool := offsets.any (fun k => e.inText (ea.toNat + k))

/-- Every byte of the store lies in `MEM_MAP` (20_memory.md R50). -/
def Env.admits (e : Env) (ea : Addr) : Bool := offsets.all (fun k => e.inMap (ea.toNat + k))

/-- `pc + 4` fits in 32 bits (10_state.md R23). -/
def State.nextPcFits (s : State) : Bool := decide (s.ctx.pc.toNat + Config.insnBytes < Config.spaceSize)

/-- `pc <- pc + 4` (10_state.md R23). -/
def State.advancePc (s : State) : State := { s with ctx := { s.ctx with pc := s.ctx.pc + 4#32 } }

/-- The last four checks of 60_exceptions.md R105 for a store at `ea`, in its order; `t` is the state after all effects, reached only if every check passes. -/
def checkStore (s : State) (ea : Addr) (t : State) : Host.Outcome State Fault Refusal :=
  if fitsSpace ea then
    if s.env.touchesText ea then .refused .storeToText
    else if s.env.admits ea then
      if s.nextPcFits then .next t else .refused .pcWrap
    else .fault .memNotAdmitted
  else .refused .addressWrap

/-- The effects of a store without update: effects 2, 3 and 5 of 40_store_doubleword.md R80. -/
def State.storeEffects (s : State) (ea : Addr) (v : Word) : State :=
  ((s.reservationsInvalidate ea).memWrite ea v).advancePc

/-- The effects of an update form: effects 2, 3, 4 and 5 of 40_store_doubleword.md R80, store before update; `x[RA] <- zext_64(EA)` (R86). -/
def State.storeUpdateEffects (s : State) (ea : Addr) (v : Word) (ra : Reg) : State :=
  (((s.reservationsInvalidate ea).memWrite ea v).writeGpr ra (zext64 ea)).advancePc

/-! Fetch (20_memory.md R57). -/

/-- The word at an address of `TEXT`, assembled big-endian; `none` where some byte of it is outside `TEXT`. -/
def Env.fetchWord (e : Env) (a : Nat) : Option InsnWord :=
  match Memory.read e.text a, Memory.read e.text (a + 1), Memory.read e.text (a + 2), Memory.read e.text (a + 3) with
  | some b0, some b1, some b2, some b3 => some (wordOfBytes b0 b1 b2 b3)
  | _, _, _, _ => none

/-- The instruction a step of the executing agent runs, or why it runs none: checks 1 to 3 of 60_exceptions.md R105. -/
def State.fetchInstr (s : State) : Except Refusal Instr :=
  if s.ctx.pc.toNat % Config.insnBytes ≠ 0 then .error .pcMisaligned
  else
    match s.env.fetchWord s.ctx.pc.toNat with
    | none => .error .fetchNotAdmitted
    | some w =>
      match decode w with
      | .instr i => .ok i
      | .undecoded => .error .undecodedWord
      | .truncated => .error .undecodedWord

/-! Agents and turns (60_exceptions.md R112; log 11). -/

/-- The context of agent `ag` taken out of the parked agents, `me` parked in its place. -/
def swapParked (ag : Nat) (me : Parked) : List Parked → Option (Context × List Parked)
  | [] => none
  | p :: ps =>
    if p.id = ag then some (p.ctx, me :: ps)
    else
      match swapParked ag me ps with
      | some (c, qs) => some (c, p :: qs)
      | none => none

/-- Agent `ag` becomes the executing agent; a number no agent has leaves the executing agent as it is. -/
def State.switchTo (s : State) (ag : Nat) : State :=
  if ag = s.agent then s
  else
    match swapParked ag ⟨s.agent, s.ctx⟩ s.parked with
    | some (c, ps) => { s with agent := ag, ctx := c, parked := ps }
    | none => s

/-- The context of agent `ag`, executing or parked. -/
def State.contextOf (s : State) (ag : Nat) : Option Context :=
  if ag = s.agent then some s.ctx else (s.parked.find? (fun p => p.id == ag)).map Parked.ctx

/-- `NAGENTS` (00_scope.md R12, 60_exceptions.md R112). -/
def State.nAgents (s : State) : Nat := s.parked.length + 1

/-- Whose turn it is: the head of the schedule, or the executing agent again when no turn is listed. -/
def State.turn (s : State) : Turn :=
  match s.turns with
  | [] => .run s.agent
  | t :: _ => t

/-- The state with its turn used up. -/
def State.popTurn (s : State) : State := { s with turns := s.turns.tail }

/-- The contexts of all agents. -/
def State.contexts (s : State) : List Context := s.ctx :: s.parked.map Parked.ctx

/-- The agent with this context can take a step: its run has not ended, neither at `END_PC` (70_reset_and_hazards.md R122) nor by a fault or a refusal (60_exceptions.md R107, R114). -/
def Env.running (e : Env) (c : Context) : Bool := c.stop.isNone && !(e.endPc == some c.pc)

/-- Some agent can take a step. -/
def State.someRunning (s : State) : Bool := s.contexts.any s.env.running

/-- The agent that takes a step when it is the turn of `ag`: `ag` itself if it can; else the executing agent; else the first parked agent that can; none if no agent can (log 11). -/
def State.runner (s : State) (ag : Nat) : Option Nat :=
  if (s.contextOf ag).any s.env.running then some ag
  else if s.env.running s.ctx then some s.agent
  else (s.parked.find? (fun p => s.env.running p.ctx)).map Parked.id

/-- The fault an agent's run ended in. -/
def Context.endFault (c : Context) : Option Fault :=
  match c.stop with
  | some (.fault f) => some f
  | some (.refuse _) => none
  | none => none

/-- The refusal an agent's run ended in. -/
def Context.endRefusal (c : Context) : Option Refusal :=
  match c.stop with
  | some (.fault _) => none
  | some (.refuse r) => some r
  | none => none

/-- The outcome once no agent can take a step: a fault if an agent's run ended in one, since "the faulted state is never a final state of a run" (60_exceptions.md R102); else a refusal
an agent's run ended in; else every agent is at `END_PC` (70_reset_and_hazards.md R122; logs 10 and 18). -/
def State.verdict (s : State) : Host.Outcome State Fault Refusal :=
  match s.contexts.findSome? Context.endFault with
  | some f => .fault f
  | none =>
    match s.contexts.findSome? Context.endRefusal with
    | some r => .refused r
    | none => .refused .runEnded

/-- The executing agent's run ends for a reason and the others' go on (60_exceptions.md R107): nothing else of the state changes (R105); with no other agent running the reason is the outcome (log 18). -/
def State.endRun (s : State) (why : Stop) : Host.Outcome State Fault Refusal :=
  let t : State := { s with ctx := { s.ctx with stop := some why } }
  if t.someRunning then .next t else t.verdict

/-- The machine's outcome, given what the executing agent's step from `s` answered (60_exceptions.md R102, R107). -/
def State.afterAgent (s : State) : Host.Outcome State Fault Refusal → Host.Outcome State Fault Refusal
  | .next t => .next t
  | .fault f => s.endRun (.fault f)
  | .refused r => s.endRun (.refuse r)

/-! Loading a program from outside the machine (70_reset_and_hazards.md R121; log 19). -/

/-- Bytes of program text put at consecutive addresses from `a`. -/
def loadText (m : Memory) (a : Nat) : List Byte → Memory
  | [] => m
  | b :: bs => loadText (Memory.write m a b) (a + 1) bs

/-- The state that fetches word `w` at its next step: `w` in `TEXT` at the pc, the pc a multiple of 4, the executing agent's run not ended, and its turn. -/
def State.placeWord (s : State) (w : InsnWord) : State :=
  let pc : Addr := BitVec.ofNat 32 (s.ctx.pc.toNat - s.ctx.pc.toNat % Config.insnBytes)
  { s with
    ctx := { s.ctx with pc := pc, stop := none }
    turns := []
    env := { s.env with
      text := loadText s.env.text pc.toNat (wordBytes w)
      endPc := if s.env.endPc = some pc then none else s.env.endPc } }

end Sys2Proof.Machine
end

