-- ==== Sys2Proof/Machine/StoreDoubleword.lean ====
section
/-! DEFINITION. The meanings of the store-doubleword family (40_store_doubleword.md R80 to R87). -/

namespace Sys2Proof.Machine

/-- `std` — Store Doubleword (40_store_doubleword.md R81). -/
def execStd (rs ra : Reg) (ds : Int) (s : State) : Host.Outcome State Fault Refusal :=
  let ea := s.eaStd ra ds
  checkStore s ea (s.storeEffects ea (s.readGpr rs))

/-- `stdu` — Store Doubleword with Update (40_store_doubleword.md R82); the stored value is read before RA is written (R85). -/
def execStdu (rs ra : Reg) (ds : Int) (s : State) : Host.Outcome State Fault Refusal :=
  if s.refusesForm ra then .refused .invalidFormRA0
  else
    let ea := s.eaStdu ra ds
    checkStore s ea (s.storeUpdateEffects ea (s.readGpr rs) ra)

/-- `stdux` — Store Doubleword with Update Indexed (40_store_doubleword.md R83); the stored value is read before RA is written (R85). -/
def execStdux (rs ra rb : Reg) (s : State) : Host.Outcome State Fault Refusal :=
  if s.refusesForm ra then .refused .invalidFormRA0
  else
    let ea := s.eaStdux ra rb
    checkStore s ea (s.storeUpdateEffects ea (s.readGpr rs) ra)

/-- `stdx` — Store Doubleword Indexed (40_store_doubleword.md R84). -/
def execStdx (rs ra rb : Reg) (s : State) : Host.Outcome State Fault Refusal :=
  let ea := s.eaStdx ra rb
  checkStore s ea (s.storeEffects ea (s.readGpr rs))

end Sys2Proof.Machine
end

