-- ==== Sys2Proof/Machine/Dispatch.lean ====
section
/-! DEFINITION. One arm per instruction: its meaning. -/

namespace Sys2Proof.Machine

/-- The effect of one instruction (40_store_doubleword.md R80 to R84). -/
def exec (i : Instr) (s : State) : Host.Outcome State Fault Refusal :=
  match i with
  | .std rs ra ds => Sys2Proof.Machine.execStd rs ra ds s
  | .stdu rs ra ds => Sys2Proof.Machine.execStdu rs ra ds s
  | .stdux rs ra rb => Sys2Proof.Machine.execStdux rs ra rb s
  | .stdx rs ra rb => Sys2Proof.Machine.execStdx rs ra rb s

end Sys2Proof.Machine
end

