-- ==== Sys2Proof/Machine/Step.lean ====
section
/-! DEFINITION. One step of the machine (60_exceptions.md R102, R105, R112), and the load of one instruction from outside. -/

namespace Sys2Proof.Machine

/-- One step of the executing agent: fetch, decode, execute; one of three outcomes (60_exceptions.md R102, R105). -/
def agentStep (s : State) : Host.Outcome State Fault Refusal :=
  match s.fetchInstr with
  | .error r => .refused r
  | .ok i => exec i s

/-- One step of the machine: what the next turn says. With no turn listed the executing agent takes a step (60_exceptions.md R112; log 11). A fault or a refusal ends that agent's run
only (60_exceptions.md R107). A settle turn goes on even where every agent's run has ended (DESIGN CHOICE, log 27). -/
def step (s : State) : Host.Outcome State Fault Refusal :=
  match s.turn with
  | .run ag =>
    match s.popTurn.runner ag with
    | some r => (s.popTurn.switchTo r).afterAgent (agentStep (s.popTurn.switchTo r))
    | none => s.verdict
  | .settle ag a => .next (s.popTurn.settle ag a)

/-- The state whose next step runs the instruction with the bits `w` (bits from `nbits` up zero): the load of a program from outside (log 19). -/
def State.withFetchWord (s : State) (nbits w : Nat) : State := s.placeWord (BitVec.ofNat 32 (w % 2 ^ nbits))

end Sys2Proof.Machine
end

