-- ==== Sys2Proof/Machine/Flags.lean ====
section
/-! DEFINITION. The status registers and the register files the source only names. No instruction computes a flag:
"No condition-register or status-register effects" (10_state.md R24, R25, R27); these are their accessors. -/

namespace Sys2Proof.Machine

/-- The condition register of the executing agent (10_state.md R24). -/
def State.cr (s : State) : Nat := s.ctx.cr

/-- XER of the executing agent (10_state.md R25). -/
def State.xer (s : State) : Xer := s.ctx.xer

/-- The state with other contents in the registers no instruction touches: the condition register, XER, and the floating-point and
vector files (10_state.md R24, R25, R27). -/
def State.withNamedOnly (s : State) (cr : Nat) (xer : Xer) (fpr vr : Vector Nat 32) : State :=
  { s with ctx := { s.ctx with cr := cr, xer := xer, fpr := fpr, vr := vr } }

end Sys2Proof.Machine
end

