-- ==== Sys2Proof/Safety.lean ====
section
/-! DEFINITION. What counts as a safe run, and the terms the claims use: when a store may complete, what a completed store leaves, and the invariant every step keeps. -/

namespace Sys2Proof.Machine

/-! Runs (70_reset_and_hazards.md R122). -/

/-- A state reached by steps that all answered a next state. -/
inductive Reaches (s : State) : State → Prop where
  | refl : Reaches s s
  | step {t u : State} : Reaches s t → Machine.step t = .next u → Reaches s u

/-- No agent's run has ended in a fault or a refusal. -/
def State.noneStopped (s : State) : Prop := ∀ c ∈ s.contexts, c.stop = none

/-- A final state: every agent is at `END_PC` and none faulted or was refused (70_reset_and_hazards.md R122, 60_exceptions.md R102). That stores may still wait
then, and become visible afterwards, is the model's choice (log 27). -/
def State.Final (s : State) : Prop := s.noneStopped ∧ ∀ c ∈ s.contexts, s.env.endPc = some c.pc

/-- A run that never goes wrong: in every state it reaches no agent has faulted or been refused, and the state is final or steps on (60_exceptions.md R102). -/
def SafeFrom (s : State) : Prop := ∀ t, Reaches s t → t.noneStopped ∧ (t.Final ∨ ∃ u, Machine.step t = .next u)

/-! The terms of the claims about one store. -/

/-- The checks 6 to 9 of 60_exceptions.md R105 pass for a store at `ea`: it does not run past the top, no byte of it is in `TEXT`, every byte is in `MEM_MAP`, and
`pc + 4` fits in 32 bits. -/
structure CanStore (s : State) (ea : Addr) : Prop where
  fits    : ea.toNat ≤ 0xFFFFFFF8
  notText : ∀ k < 8, Memory.read s.env.text (ea.toNat + k) = none
  mapped  : ∀ k < 8, ∃ r ∈ s.env.memMap, r.base ≤ ea.toNat + k ∧ ea.toNat + k < r.base + r.size
  pcFits  : s.ctx.pc.toNat < 0xFFFFFFFC

/-- The reservations after a store at `ea` (20_memory.md R49). Tracking off: as before. Tracking on: none is new, those whose granule holds byte EA are gone,
and those no byte of the store touches are kept. Granule `g` is the `size` bytes from `g` times `align` (log 14). -/
def ResvAfter (s : State) (ea : Addr) (t : State) : Prop :=
  if s.env.resvTracking then
    (∀ r ∈ t.resv, r ∈ s.resv ∧
      ¬ (r.granule * s.env.granule.align ≤ ea.toNat ∧ ea.toNat < r.granule * s.env.granule.align + s.env.granule.size)) ∧
    (∀ r ∈ s.resv, (∀ k < 8, ¬ (r.granule * s.env.granule.align ≤ ea.toNat + k ∧
      ea.toNat + k < r.granule * s.env.granule.align + s.env.granule.size)) → r ∈ t.resv)
  else t.resv = s.resv

/-- What a completed store of `v` at `ea` leaves outside the executing agent's registers: the executing agent sees the eight bytes of `v`, most significant first, at
EA to EA + 7 (20_memory.md R43); what any agent sees of any other address is as before; with one agent the bytes are in memory; the reservations are as 20_memory.md R49
says; nothing else changes. With several agents the eight bytes wait behind every store that waited before, and memory itself is as before (log 12). -/
structure Stored (s : State) (ea : Addr) (v : Word) (t : State) : Prop where
  bytes   : ∀ k < 8, t.readByte (ea.toNat + k) = some (v.extractLsb' (56 - 8 * k) 8)
  frame   : ∀ ag a, (a < ea.toNat ∨ ea.toNat + 8 ≤ a) → t.seenBy ag a = s.seenBy ag a
  waits   : s.alone = false → t.mem = s.mem ∧
    t.pending = s.pending ++ [⟨s.agent, (List.range 8).map (fun k => (ea.toNat + k, v.extractLsb' (56 - 8 * k) 8))⟩]
  others  : ∀ ag a, ag ≠ s.agent → s.alone = false → t.seenBy ag a = s.seenBy ag a
  lone    : s.alone = true → t.pending = [] ∧
    (∀ k < 8, Memory.read t.mem (ea.toNat + k) = some (v.extractLsb' (56 - 8 * k) 8)) ∧
    ∀ a, (a < ea.toNat ∨ ea.toNat + 8 ≤ a) → Memory.read t.mem a = Memory.read s.mem a
  resv    : ResvAfter s ea t
  agent   : t.agent = s.agent
  parked  : t.parked = s.parked
  turns   : t.turns = s.turns
  env     : t.env = s.env

/-- An outcome with its next state changed. -/
def mapNext (f : State → State) : Host.Outcome State Fault Refusal → Host.Outcome State Fault Refusal
  | .next s => .next (f s)
  | .fault r => .fault r
  | .refused r => .refused r

/-- The general registers an instruction reads (10_state.md R22, C1). -/
def gprReads : Instr → List Reg
  | .std rs ra _ => if ra = 0 then [rs] else [rs, ra]
  | .stdu rs ra _ => [rs, ra]
  | .stdux rs ra rb => [rs, ra, rb]
  | .stdx rs ra rb => if ra = 0 then [rs, rb] else [rs, ra, rb]

/-- The general registers an instruction writes (10_state.md R22). -/
def gprWrites : Instr → List Reg
  | .std _ _ _ => []
  | .stdu _ ra _ => [ra]
  | .stdux _ ra _ => [ra]
  | .stdx _ _ _ => []

/-- The effective address of an instruction (40_store_doubleword.md R81 to R84). -/
def State.eaOf (s : State) : Instr → Addr
  | .std _ ra ds => s.eaStd ra ds
  | .stdu _ ra ds => s.eaStdu ra ds
  | .stdux _ ra rb => s.eaStdux ra rb
  | .stdx _ ra rb => s.eaStdx ra rb

/-- The register whose value an instruction stores (40_store_doubleword.md R81 to R84). -/
def storedReg : Instr → Reg
  | .std rs _ _ => rs
  | .stdu rs _ _ => rs
  | .stdux rs _ _ => rs
  | .stdx rs _ _ => rs

/-- An update form refused for its RA field 0 (30_encoding.md R69). -/
def State.refusesInstr (s : State) : Instr → Bool
  | .std _ _ _ => false
  | .stdu _ ra _ => s.refusesForm ra
  | .stdux _ ra _ => s.refusesForm ra
  | .stdx _ _ _ => false

/-! The invariant. -/

/-- The order in which `Resv` is listed, so that equal sets are equal lists. -/
def Reservation.before (r q : Reservation) : Prop := r.agent < q.agent ∨ (r.agent = q.agent ∧ r.granule < q.granule)

/-- What a claim's launch gives the parameters (00_scope.md R12): text in canonical form and, as `MEM_MAP`, inside the address space; `END_PC` a multiple of 4 (70_reset_and_hazards.md R122); a granule
of at least one byte. -/
structure Env.Wf (e : Env) : Prop where
  textWf     : Memory.wf e.text
  textPlaced : ∀ c ∈ e.text, c.1 < Config.spaceSize
  mapPlaced  : ∀ r ∈ e.memMap, r.base + r.size ≤ Config.spaceSize
  endAligned : ∀ a, e.endPc = some a → a.toNat % 4 = 0
  granule    : 0 < e.granule.size ∧ 0 < e.granule.align

/-- A reason of the closed list of 60_exceptions.md R103. -/
def Stop.listed : Stop → Bool
  | .fault .memNotAdmitted => true
  | .refuse r => [Refusal.pcMisaligned, .fetchNotAdmitted, .undecodedWord, .invalidFormRA0, .addressWrap, .storeToText, .pcWrap].contains r

/-- What every step keeps of one agent's own state: its pc is a multiple of 4, and where its run ended in a fault or a refusal the reason is of the closed list. -/
structure Context.Ok (c : Context) : Prop where
  pcAligned : c.pc.toNat % 4 = 0
  listed    : ∀ r, c.stop = some r → r.listed = true

/-- What every step keeps: the parameters as a launch gives them; memory in canonical form; every byte that is stored or waiting in the address space, in `MEM_MAP` and outside `TEXT`; no empty
waiting store, and none that lists an address twice; `Resv` listed without repeats; no two agents with one number; every agent's own state in order. -/
structure State.Inv (s : State) : Prop where
  env        : s.env.Wf
  memWf      : Memory.wf s.mem
  memPlaced  : ∀ c ∈ s.mem, c.1 < Config.spaceSize ∧ s.env.storable c.1 = true
  pendPlaced : ∀ p ∈ s.pending, ∀ c ∈ p.cells, c.1 < Config.spaceSize ∧ s.env.storable c.1 = true
  pendWf     : ∀ p ∈ s.pending, p.cells ≠ [] ∧ Memory.wf p.cells
  resvSorted : s.resv.Pairwise Reservation.before
  agents     : (s.agent :: s.parked.map Parked.id).Nodup
  contexts   : ∀ c ∈ s.contexts, c.Ok

end Sys2Proof.Machine
end

