-- ==== Sys2Proof/Certificates/Slice0/Obligations.lean ====
section
/-! DEFINITION. The statements about the model. Where a clause rests on a decision the spec marks as its own (D<n>) or on a choice of the model (log <n>), the docstring says so. -/

open Sys2Proof Sys2Proof.Machine

/-! Fetch, turns and the stops before an instruction runs. -/

/-- 20_memory.md R57 (the spec's own decision D5): with no turn listed, where the executing agent's run has not ended, at an aligned pc with four bytes of `TEXT` there that decode, first byte most significant, to
an instruction, a step is `exec` of that instruction at that state; the pc's advance is part of `exec`. A fault or a refusal of it ends that agent's run and no other (60_exceptions.md R107, the spec's own decision
D15; how it is recorded is the model's choice, log 18); on a machine with one agent it is the outcome. -/
def Obligations.StepRunsDecodedInstruction : Prop :=
  ∀ (s : State) (b0 b1 b2 b3 : Byte) (i : Instr),
    s.turns = [] → s.ctx.stop = none → s.env.endPc ≠ some s.ctx.pc → s.ctx.pc.toNat % 4 = 0 →
    Memory.read s.env.text s.ctx.pc.toNat = some b0 → Memory.read s.env.text (s.ctx.pc.toNat + 1) = some b1 →
    Memory.read s.env.text (s.ctx.pc.toNat + 2) = some b2 → Memory.read s.env.text (s.ctx.pc.toNat + 3) = some b3 →
    decode (b0 ++ b1 ++ b2 ++ b3) = .instr i →
    (∀ t, exec i s = .next t → step s = .next t) ∧
    (s.parked = [] → step s = exec i s) ∧
    ((∃ p ∈ s.parked, p.ctx.stop = none ∧ s.env.endPc ≠ some p.ctx.pc) →
      (∀ f, exec i s = .fault f → step s = .next { s with ctx := { s.ctx with stop := some (.fault f) } }) ∧
      ∀ r, exec i s = .refused r → step s = .next { s with ctx := { s.ctx with stop := some (.refuse r) } })

/-- Checks 1 to 3 of 60_exceptions.md R105 (the spec's own order, D23; the reasons D3, D5, D8) for a step of the executing agent; on a machine with one agent whose run has not ended and no turn listed they are
the step's, and at `END_PC` (70_reset_and_hazards.md R122, D24) the step is refused `runEnded`, which is the model's choice (log 10). -/
def Obligations.StopsBeforeExecution : Prop :=
  ∀ s : State,
    (s.ctx.pc.toNat % 4 ≠ 0 → agentStep s = .refused .pcMisaligned) ∧
    (s.ctx.pc.toNat % 4 = 0 → (∃ k < 4, Memory.read s.env.text (s.ctx.pc.toNat + k) = none) →
      agentStep s = .refused .fetchNotAdmitted) ∧
    (∀ b0 b1 b2 b3 : Byte, s.ctx.pc.toNat % 4 = 0 →
      Memory.read s.env.text s.ctx.pc.toNat = some b0 → Memory.read s.env.text (s.ctx.pc.toNat + 1) = some b1 →
      Memory.read s.env.text (s.ctx.pc.toNat + 2) = some b2 → Memory.read s.env.text (s.ctx.pc.toNat + 3) = some b3 →
      decode (b0 ++ b1 ++ b2 ++ b3) = .undecoded → agentStep s = .refused .undecodedWord) ∧
    (s.turns = [] → s.parked = [] → s.ctx.stop = none →
      (s.env.endPc ≠ some s.ctx.pc → step s = agentStep s) ∧ (s.env.endPc = some s.ctx.pc → step s = .refused .runEnded))

/-- 60_exceptions.md R112, R107 (the spec's own decisions D13, D15; the schedule and the record of a stop are the model's, logs 11 and 18, and so is that CR, XER and the other register files are per agent, log 26): where the next turn names an agent whose run has not ended, that agent takes the
step with its own registers and pc, every other agent's are kept, and memory, the waiting stores, the reservations and the parameters are the shared ones; a fault or a refusal of it ends its run and the others can
go on. A turn of an agent that cannot take a step is one of the executing agent, or of another that can. -/
def Obligations.TurnRunsNamedAgent : Prop :=
  ∀ (s : State) (ag : Nat) (ts : List Turn), (s.agent :: s.parked.map Parked.id).Nodup → s.turns = .run ag :: ts →
    (∀ c : Context, s.contextOf ag = some c → c.stop = none → s.env.endPc ≠ some c.pc →
      ∃ t : State, t.agent = ag ∧ t.ctx = c ∧ (∀ ag', t.contextOf ag' = s.contextOf ag') ∧
        t.nAgents = s.nAgents ∧ t.mem = s.mem ∧ t.pending = s.pending ∧ t.resv = s.resv ∧ t.turns = ts ∧
        t.draws = s.draws ∧ t.env = s.env ∧
        (∀ u, agentStep t = .next u → step s = .next u) ∧
        ((∃ p ∈ t.parked, p.ctx.stop = none ∧ s.env.endPc ≠ some p.ctx.pc) →
          (∀ f, agentStep t = .fault f → step s = .next { t with ctx := { c with stop := some (.fault f) } }) ∧
          ∀ r, agentStep t = .refused r → step s = .next { t with ctx := { c with stop := some (.refuse r) } })) ∧
    ((∀ c, s.contextOf ag = some c → c.stop ≠ none ∨ s.env.endPc = some c.pc) →
      (s.ctx.stop = none → s.env.endPc ≠ some s.ctx.pc → step s = step { s with turns := .run s.agent :: ts }) ∧
      (¬ (s.ctx.stop = none ∧ s.env.endPc ≠ some s.ctx.pc) → (∃ p ∈ s.parked, p.ctx.stop = none ∧ s.env.endPc ≠ some p.ctx.pc) →
        ∃ p ∈ s.parked, p.ctx.stop = none ∧ s.env.endPc ≠ some p.ctx.pc ∧ step s = step { s with turns := .run p.id :: ts }))

/-- 60_exceptions.md R102, R107, 70_reset_and_hazards.md R122 (the outcome of a machine none of whose agents can go on is the model's choice, logs 10 and 18, and so is that stores may wait then and that a settle turn goes on, log 27): a fault if an agent's run ended in one, else a refusal one ended in,
else `runEnded`. -/
def Obligations.OutcomeOnceEveryRunHasEnded : Prop :=
  ∀ (s : State) (ag : Nat), s.turn = .run ag → (∀ c ∈ s.contexts, c.stop ≠ none ∨ s.env.endPc = some c.pc) →
    ((∃ c ∈ s.contexts, ∃ f, c.stop = some (.fault f)) → step s = .fault .memNotAdmitted) ∧
    ((∀ c ∈ s.contexts, ∀ f, c.stop ≠ some (.fault f)) → (∃ c ∈ s.contexts, c.stop ≠ none) →
      ∃ c ∈ s.contexts, ∃ r, c.stop = some (.refuse r) ∧ step s = .refused r) ∧
    ((∀ c ∈ s.contexts, c.stop = none) → step s = .refused .runEnded)

/-- 60_exceptions.md R102, R107 (the spec's own decision D15; which of several reasons is the outcome is the model's choice, log 18): where no other agent can go on, a fault of the executing agent is the machine's outcome, and so is a refusal unless another agent's run ended in a fault. -/
def Obligations.LastStopIsTheOutcome : Prop :=
  ∀ s : State, s.turns = [] → s.ctx.stop = none → s.env.endPc ≠ some s.ctx.pc →
    (∀ p ∈ s.parked, p.ctx.stop ≠ none ∨ s.env.endPc = some p.ctx.pc) →
    (∀ f, agentStep s = .fault f → step s = .fault f) ∧
    ∀ r, agentStep s = .refused r →
      ((∀ p ∈ s.parked, ∀ f, p.ctx.stop ≠ some (.fault f)) → step s = .refused r) ∧
      ((∃ p ∈ s.parked, ∃ f, p.ctx.stop = some (.fault f)) → step s = .fault .memNotAdmitted)

/-- 70_reset_and_hazards.md R122, 60_exceptions.md R107 (the spec's own decisions D24, D15; the model's are the record of a stop, log 18, that CR, XER and the other register files are per agent, log 26, and that a settle turn goes on, log 27): an agent at `END_PC`, or whose run ended in a fault or a refusal, takes no further step: no step of the machine changes its registers, its pc or the record of its stop. -/
def Obligations.EndedAgentTakesNoStep : Prop :=
  ∀ (s t : State) (ag : Nat) (c : Context), (s.agent :: s.parked.map Parked.id).Nodup → step s = .next t →
    s.contextOf ag = some c → (c.stop ≠ none ∨ s.env.endPc = some c.pc) → t.contextOf ag = some c

/-- 60_exceptions.md R102, 70_reset_and_hazards.md R122 (the spec's own decisions D15, D24; that stores may still wait in a final state is the model's choice, log 27): a run that is safe in the sense of `SafeFrom` reaches no fault, no refusal but the end of the run, and no state in which an agent
faulted or was refused: "the faulted state is never a final state of a run". -/
def Obligations.SafeRunNeverStops : Prop :=
  ∀ s t : State, SafeFrom s → Reaches s t →
    (∀ c ∈ t.contexts, c.stop = none) ∧ (∀ f, step t ≠ .fault f) ∧
    ∀ r, step t = .refused r → r = .runEnded ∧ ∀ c ∈ t.contexts, t.env.endPc = some c.pc

/-- 20_memory.md R47, R52 (the values of `STORE_ATOMICITY` and `MEMORY_MODEL` and the turn are the model's, log 12): a settle turn with no waiting byte of the agent at the address does nothing. Else the agent's oldest
store with such a byte is taken: it must wait while the agent has an older store in program order, or one that still has a byte at an address that would become visible with it; else the byte, or with atomic stores all
its store's bytes, goes to memory, the rest of the store goes on waiting in its place, and nothing else changes. -/
def Obligations.SettleTurnShowsOldestByte : Prop :=
  ∀ (s : State) (ag a : Nat) (ts : List Turn), s.turns = .settle ag a :: ts →
    ((∀ p ∈ s.pending, p.agent = ag → Memory.read p.cells a = none) → step s = .next { s with turns := ts }) ∧
    ∀ (xs ys : List PendingStore) (cells : List Host.Cell), s.pending = xs ++ ⟨ag, cells⟩ :: ys → Memory.read cells a ≠ none →
      (∀ q ∈ xs, q.agent = ag → Memory.read q.cells a = none) →
      (s.env.memoryModel = .programOrder → (∃ q ∈ xs, q.agent = ag) → step s = .next { s with turns := ts }) ∧
      (s.env.storeAtomicity = .whole → (∃ q ∈ xs, q.agent = ag ∧ ∃ c ∈ cells, Memory.read q.cells c.1 ≠ none) →
        step s = .next { s with turns := ts }) ∧
      ((s.env.memoryModel = .programOrder → ∀ q ∈ xs, q.agent ≠ ag) →
        (s.env.storeAtomicity = .whole → (∀ q ∈ xs, q.agent = ag → ∀ c ∈ cells, Memory.read q.cells c.1 = none) →
          ∃ m, step s = .next { s with mem := m, pending := xs ++ ys, turns := ts } ∧
            ∀ x, Memory.read m x = (Memory.read cells x).or (Memory.read s.mem x)) ∧
        (s.env.storeAtomicity = .bytes →
          ∃ m, step s = .next { s with
              mem := m
              pending := xs ++ ((if ∀ c ∈ cells, c.1 = a then [] else [⟨ag, cells.filter (fun c => c.1 != a)⟩]) ++ ys)
              turns := ts } ∧
            ∀ x, Memory.read m x = if x = a then Memory.read cells a else Memory.read s.mem x))

/-- 60_exceptions.md R112 (the spec's own decision D13; that CR, XER and the other register files are per agent is the model's choice, log 26): a step changes the registers and the pc of no agent but the one that runs; a settle turn changes no agent's. -/
def Obligations.StepKeepsOtherAgents : Prop :=
  ∀ (s t : State) (ag : Nat), (s.agent :: s.parked.map Parked.id).Nodup → step s = .next t →
    ((∃ a, s.turn = .run a) → ag ≠ t.agent) → t.contextOf ag = s.contextOf ag

/-- The load of one instruction from outside (log 19, the model's choice): the step after `withFetchWord` is `exec` of the instruction the decoder reads from the placed bits, a stop of it as in `StepRunsDecodedInstruction`. -/
def Obligations.PlacedWordRuns : Prop :=
  ∀ (s : State) (nbits w : Nat) (i : Instr), decodeTableWord nbits w = some i →
    (∀ t, exec i (s.withFetchWord nbits w) = .next t → step (s.withFetchWord nbits w) = .next t) ∧
    (s.parked = [] → step (s.withFetchWord nbits w) = exec i (s.withFetchWord nbits w))

/-! The four instructions. -/

/-- 40_store_doubleword.md R81: the encoding of `std`; its effects, with the base the literal zero for RA field 0, when the checks pass; its outcomes otherwise (the check on the pc is
10_state.md R23, the spec's own decision D4). What `Stored` says of the machine with several agents is the model's choice (logs 12 and 13), and what it says of reservations is the spec's own decision D14 on granules as the model has them (log 14). -/
def Obligations.StdStoresDoubleword : Prop :=
  (∀ w : InsnWord, w &&& 0xFC000003#32 = 0xF8000000#32 → ∃ (rs ra : Reg) (ds : Int),
    decode w = .instr (.std rs ra ds) ∧ rs.val = (w.extractLsb' 21 5).toNat ∧ ra.val = (w.extractLsb' 16 5).toNat ∧
      BitVec.ofInt 64 ds = (w.extractLsb' 2 14 ++ 0#2).signExtend 64) ∧
  ∀ (rs ra : Reg) (ds : Int) (s : State) (ea : Addr),
    ea = ((if ra = 0 then 0#64 else s.ctx.gpr[ra]) + BitVec.ofInt 64 ds).truncate 32 →
    (CanStore s ea → ∃ t, exec (.std rs ra ds) s = .next t ∧ t.ctx = { s.ctx with pc := s.ctx.pc + 4#32 } ∧
      Stored s ea s.ctx.gpr[rs] t) ∧
    (¬ CanStore s ea → exec (.std rs ra ds) s = .refused .addressWrap ∨ exec (.std rs ra ds) s = .refused .storeToText ∨
      exec (.std rs ra ds) s = .fault .memNotAdmitted ∨ exec (.std rs ra ds) s = .refused .pcWrap)

/-- 40_store_doubleword.md R82: the encoding of `stdu`; its effects, with plain RA as the base and RA then holding the zero-extended EA, when the checks pass and the form is not refused; the
refusal of RA field 0 under `INVALID_FORM_POLICY = refuse` (D7); its outcomes otherwise. What `Stored` says of the machine with several agents is the model's choice (logs 12 and 13), and what it says of reservations is the spec's own decision D14 on granules as the model has them (log 14). -/
def Obligations.StduStoresAndUpdates : Prop :=
  (∀ w : InsnWord, w &&& 0xFC000003#32 = 0xF8000001#32 → ∃ (rs ra : Reg) (ds : Int),
    decode w = .instr (.stdu rs ra ds) ∧ rs.val = (w.extractLsb' 21 5).toNat ∧ ra.val = (w.extractLsb' 16 5).toNat ∧
      BitVec.ofInt 64 ds = (w.extractLsb' 2 14 ++ 0#2).signExtend 64) ∧
  ∀ (rs ra : Reg) (ds : Int) (s : State) (ea : Addr), ea = (s.ctx.gpr[ra] + BitVec.ofInt 64 ds).truncate 32 →
    (ra = 0 → s.env.invalidForm = .refuse → exec (.stdu rs ra ds) s = .refused .invalidFormRA0) ∧
    ((ra ≠ 0 ∨ s.env.invalidForm = .snapshot) → CanStore s ea → ∃ t, exec (.stdu rs ra ds) s = .next t ∧
      t.ctx = { s.ctx with gpr := s.ctx.gpr.set ra (ea.zeroExtend 64), pc := s.ctx.pc + 4#32 } ∧ Stored s ea s.ctx.gpr[rs] t) ∧
    ((ra ≠ 0 ∨ s.env.invalidForm = .snapshot) → ¬ CanStore s ea →
      exec (.stdu rs ra ds) s = .refused .addressWrap ∨ exec (.stdu rs ra ds) s = .refused .storeToText ∨
      exec (.stdu rs ra ds) s = .fault .memNotAdmitted ∨ exec (.stdu rs ra ds) s = .refused .pcWrap)

/-- 40_store_doubleword.md R83: as R82 for `stdux`, whose address is the sum of two registers. What `Stored` says of the machine with several agents is the model's choice (logs 12 and 13), and what it says of reservations is the spec's own decision D14 on granules as the model has them (log 14). -/
def Obligations.StduxStoresAndUpdates : Prop :=
  (∀ w : InsnWord, w &&& 0xFC0007FF#32 = 0x7C00016A#32 → ∃ rs ra rb : Reg,
    decode w = .instr (.stdux rs ra rb) ∧ rs.val = (w.extractLsb' 21 5).toNat ∧ ra.val = (w.extractLsb' 16 5).toNat ∧
      rb.val = (w.extractLsb' 11 5).toNat) ∧
  ∀ (rs ra rb : Reg) (s : State) (ea : Addr), ea = (s.ctx.gpr[ra] + s.ctx.gpr[rb]).truncate 32 →
    (ra = 0 → s.env.invalidForm = .refuse → exec (.stdux rs ra rb) s = .refused .invalidFormRA0) ∧
    ((ra ≠ 0 ∨ s.env.invalidForm = .snapshot) → CanStore s ea → ∃ t, exec (.stdux rs ra rb) s = .next t ∧
      t.ctx = { s.ctx with gpr := s.ctx.gpr.set ra (ea.zeroExtend 64), pc := s.ctx.pc + 4#32 } ∧ Stored s ea s.ctx.gpr[rs] t) ∧
    ((ra ≠ 0 ∨ s.env.invalidForm = .snapshot) → ¬ CanStore s ea →
      exec (.stdux rs ra rb) s = .refused .addressWrap ∨ exec (.stdux rs ra rb) s = .refused .storeToText ∨
      exec (.stdux rs ra rb) s = .fault .memNotAdmitted ∨ exec (.stdux rs ra rb) s = .refused .pcWrap)

/-- 40_store_doubleword.md R84: as R81 for `stdx`, whose offset is a register; the index register is read as itself for every number. What `Stored` says of the machine with several agents is the model's choice (logs 12 and 13), and what it says of reservations is the spec's own decision D14 on granules as the model has them (log 14). -/
def Obligations.StdxStoresDoubleword : Prop :=
  (∀ w : InsnWord, w &&& 0xFC0007FF#32 = 0x7C00012A#32 → ∃ rs ra rb : Reg,
    decode w = .instr (.stdx rs ra rb) ∧ rs.val = (w.extractLsb' 21 5).toNat ∧ ra.val = (w.extractLsb' 16 5).toNat ∧
      rb.val = (w.extractLsb' 11 5).toNat) ∧
  ∀ (rs ra rb : Reg) (s : State) (ea : Addr),
    ea = ((if ra = 0 then 0#64 else s.ctx.gpr[ra]) + s.ctx.gpr[rb]).truncate 32 →
    (CanStore s ea → ∃ t, exec (.stdx rs ra rb) s = .next t ∧ t.ctx = { s.ctx with pc := s.ctx.pc + 4#32 } ∧
      Stored s ea s.ctx.gpr[rs] t) ∧
    (¬ CanStore s ea → exec (.stdx rs ra rb) s = .refused .addressWrap ∨ exec (.stdx rs ra rb) s = .refused .storeToText ∨
      exec (.stdx rs ra rb) s = .fault .memNotAdmitted ∨ exec (.stdx rs ra rb) s = .refused .pcWrap)

/-- 40_store_doubleword.md R85: RS equal to RA is a valid encoding of `stdu` and `stdux`; the value stored is the one RA held before, and RA then holds the zero-extended EA. -/
def Obligations.UpdateStoresOldBase : Prop :=
  (∀ (r : Reg) (ds : Int), (Instr.stdu r r ds).wf = true → decode (encode (.stdu r r ds)) = .instr (.stdu r r ds)) ∧
  (∀ r rb : Reg, decode (encode (.stdux r r rb)) = .instr (.stdux r r rb)) ∧
  ∀ (r : Reg) (s : State), (r ≠ 0 ∨ s.env.invalidForm = .snapshot) →
    (∀ (ds : Int) (ea : Addr), ea = (s.ctx.gpr[r] + BitVec.ofInt 64 ds).truncate 32 → CanStore s ea →
      ∃ t, exec (.stdu r r ds) s = .next t ∧ t.ctx.gpr[r] = ea.zeroExtend 64 ∧
        ∀ k < 8, t.readByte (ea.toNat + k) = some (s.ctx.gpr[r].extractLsb' (56 - 8 * k) 8)) ∧
    (∀ (rb : Reg) (ea : Addr), ea = (s.ctx.gpr[r] + s.ctx.gpr[rb]).truncate 32 → CanStore s ea →
      ∃ t, exec (.stdux r r rb) s = .next t ∧ t.ctx.gpr[r] = ea.zeroExtend 64 ∧
        ∀ k < 8, t.readByte (ea.toNat + k) = some (s.ctx.gpr[r].extractLsb' (56 - 8 * k) 8))

/-- 40_store_doubleword.md R86: after an update form RA's upper 32 bits are zero and its lower 32 bits are EA; the rule's example. -/
def Obligations.UpdateZeroExtendsAddress : Prop :=
  (∀ (rs ra : Reg) (ds : Int) (s t : State), exec (.stdu rs ra ds) s = .next t →
    t.ctx.gpr[ra] = ((s.ctx.gpr[ra] + BitVec.ofInt 64 ds).truncate 32).zeroExtend 64 ∧ t.ctx.gpr[ra].extractLsb' 32 32 = 0#32 ∧
      t.ctx.gpr[ra].extractLsb' 0 32 = (s.ctx.gpr[ra] + BitVec.ofInt 64 ds).truncate 32) ∧
  (∀ (rs ra rb : Reg) (s t : State), exec (.stdux rs ra rb) s = .next t →
    t.ctx.gpr[ra] = ((s.ctx.gpr[ra] + s.ctx.gpr[rb]).truncate 32).zeroExtend 64 ∧ t.ctx.gpr[ra].extractLsb' 32 32 = 0#32 ∧
      t.ctx.gpr[ra].extractLsb' 0 32 = (s.ctx.gpr[ra] + s.ctx.gpr[rb]).truncate 32) ∧
  ∀ (rs ra : Reg) (s t : State), s.ctx.gpr[ra] = 0xFFFFFFFF00000010#64 → exec (.stdu rs ra (-32)) s = .next t →
    t.ctx.gpr[ra] = 0x00000000FFFFFFF0#64

/-! Checks and stops. -/

/-- Checks 4 to 9 of 60_exceptions.md R105 (the spec's own order, D23; the reasons D4, D6, D7, D9, D10): the first that fails gives the outcome, for every instruction. -/
def Obligations.ChecksInOrder : Prop :=
  ∀ (i : Instr) (s : State),
    (s.refusesInstr i = true → exec i s = .refused .invalidFormRA0) ∧
    (s.refusesInstr i = false →
      ((s.eaOf i).toNat > 0xFFFFFFF8 → exec i s = .refused .addressWrap) ∧
      ((s.eaOf i).toNat ≤ 0xFFFFFFF8 →
        ((∃ k < 8, Memory.read s.env.text ((s.eaOf i).toNat + k) ≠ none) → exec i s = .refused .storeToText) ∧
        ((∀ k < 8, Memory.read s.env.text ((s.eaOf i).toNat + k) = none) →
          ((∃ k < 8, ∀ r ∈ s.env.memMap, ¬ (r.base ≤ (s.eaOf i).toNat + k ∧ (s.eaOf i).toNat + k < r.base + r.size)) →
            exec i s = .fault .memNotAdmitted) ∧
          ((∀ k < 8, ∃ r ∈ s.env.memMap, r.base ≤ (s.eaOf i).toNat + k ∧ (s.eaOf i).toNat + k < r.base + r.size) →
            s.ctx.pc.toNat ≥ 0xFFFFFFFC → exec i s = .refused .pcWrap))))

/-- 60_exceptions.md R102 (the spec's own decision D15): an instruction completes exactly when its form is not refused and the checks of R105 pass. Alignment of EA is no check (20_memory.md R45). -/
def Obligations.CompletesExactlyWhenChecksPass : Prop :=
  ∀ (i : Instr) (s : State), (∃ t, exec i s = .next t) ↔ (s.refusesInstr i = false ∧ CanStore s (s.eaOf i))

/-- 30_encoding.md R69 (the spec's own decision D7, `INVALID_FORM_POLICY`): the refusal `invalidFormRA0` comes from an update form with RA field 0 under the policy `refuse` and from nothing else. -/
def Obligations.InvalidFormRefusedByPolicyOnly : Prop :=
  ∀ (i : Instr) (s : State), exec i s = .refused .invalidFormRA0 ↔
    (s.env.invalidForm = .refuse ∧ ((∃ rs ds, i = .stdu rs 0 ds) ∨ ∃ rs rb, i = .stdux rs 0 rb))

/-- The closed list of 60_exceptions.md R103 (the spec's own decision D15), with the model's `runEnded` (log 10): from a state that meets the invariant a step stops for no other reason, and `exec` does so from every state. -/
def Obligations.StopsForListedReasonsOnly : Prop :=
  (∀ s : State, s.Inv → (∀ f, step s = .fault f → f = .memNotAdmitted) ∧
    ∀ r, step s = .refused r → r ∈ [Refusal.runEnded, .pcMisaligned, .fetchNotAdmitted, .undecodedWord, .invalidFormRA0,
      .addressWrap, .storeToText, .pcWrap]) ∧
  ∀ (i : Instr) (s : State), (∀ f, exec i s = .fault f → f = .memNotAdmitted) ∧
    ∀ r, exec i s = .refused r → r ∈ [Refusal.invalidFormRA0, .addressWrap, .storeToText, .pcWrap]

/-! What an instruction reads and changes. -/

/-- 10_state.md R20: no general register is hard-wired; each holds what was last written to it. -/
def Obligations.RegistersHoldWhatWasWritten : Prop :=
  ∀ (s : State) (r q : Reg) (v : Word), (s.writeGpr r v).readGpr q = if q = r then v else s.readGpr q

/-- 10_state.md R22: an instruction's outcome depends on no general register outside the ones the table says it reads (RA of `std` and `stdx` only when its field is not 0), and it changes none outside
the ones the table says it writes. -/
def Obligations.RegistersReadAndWritten : Prop :=
  (∀ (i : Instr) (s : State) (r : Reg) (v : Word), r ∉ gprReads i →
    exec i (s.writeGpr r v) = mapNext (fun t => t.writeGpr r v) (exec i s)) ∧
  ∀ (i : Instr) (s t : State) (r : Reg), exec i s = .next t → r ∉ gprWrites i → t.ctx.gpr[r] = s.ctx.gpr[r]

/-- 10_state.md R24, R25, R27: no instruction reads or writes the condition register, XER, or the floating-point and vector files. -/
def Obligations.NamedOnlyRegistersUntouched : Prop :=
  ∀ (i : Instr) (s : State) (cr : Nat) (xer : Xer) (fpr vr : Vector Nat 32),
    exec i (s.withNamedOnly cr xer fpr vr) = mapNext (fun t => t.withNamedOnly cr xer fpr vr) (exec i s) ∧
    ∀ t, exec i s = .next t → t.ctx.cr = s.ctx.cr ∧ t.ctx.xer = s.ctx.xer ∧ t.ctx.fpr = s.ctx.fpr ∧ t.ctx.vr = s.ctx.vr

/-- 10_state.md R28: the instructions write data memory and none reads it: apart from memory itself, the outcome is the same whatever memory holds. -/
def Obligations.MemoryIsNeverRead : Prop :=
  ∀ (i : Instr) (s : State) (m : Memory),
    mapNext (fun t => { t with mem := [] }) (exec i { s with mem := m }) = mapNext (fun t => { t with mem := [] }) (exec i s)

/-- 20_memory.md R41: the upper 32 bits of the base and of the index register have no effect on the address: with other upper bits the outcome is the same but for that register, and an update form
overwrites even those. -/
def Obligations.UpperAddressBitsIgnored : Prop :=
  ∀ (s : State) (rs ra rb : Reg) (ds : Int) (v : Word),
    (v.truncate 32 = s.ctx.gpr[ra].truncate 32 → ra ≠ rs →
      exec (.std rs ra ds) (s.writeGpr ra v) = mapNext (fun t => t.writeGpr ra v) (exec (.std rs ra ds) s) ∧
      exec (.stdu rs ra ds) (s.writeGpr ra v) = exec (.stdu rs ra ds) s ∧
      exec (.stdx rs ra rb) (s.writeGpr ra v) = mapNext (fun t => t.writeGpr ra v) (exec (.stdx rs ra rb) s) ∧
      exec (.stdux rs ra rb) (s.writeGpr ra v) = exec (.stdux rs ra rb) s) ∧
    (v.truncate 32 = s.ctx.gpr[rb].truncate 32 → rb ≠ rs → rb ≠ ra →
      exec (.stdx rs ra rb) (s.writeGpr rb v) = mapNext (fun t => t.writeGpr rb v) (exec (.stdx rs ra rb) s) ∧
      exec (.stdux rs ra rb) (s.writeGpr rb v) = mapNext (fun t => t.writeGpr rb v) (exec (.stdux rs ra rb) s))

/-- 70_reset_and_hazards.md R123 (no hazard: the spec's own decision D19): the base an update form wrote is the base of the next instruction: a `std` or a `stdu` off it starts at the updated address plus its own
displacement. -/
def Obligations.UpdatedBaseIsNextBase : Prop :=
  ∀ (s t : State) (i : Instr) (rs ra rb : Reg) (ds : Int), ra ≠ 0 → (i = .stdu rs ra ds ∨ i = .stdux rs ra rb) → exec i s = .next t →
    ∀ ds' : Int, t.eaStd ra ds' = s.eaOf i + BitVec.ofInt 32 ds' ∧ t.eaStdu ra ds' = s.eaOf i + BitVec.ofInt 32 ds'

/-- 20_memory.md R49 (the relation is the spec's own decision D14; the form of a granule, size and alignment and a number, is the model's choice, log 14; which partly covered reservations go is the free value `Config.resvDraw`,
log 15, and nothing is claimed of it): after a completed instruction the reservations left were all there before, none covers byte EA, and every one no byte of the store touches is kept; with tracking off or no reservation
held nothing changes. Each invalidation that is not skipped takes a draw of its own: the model's counter goes up by one (log 15). -/
def Obligations.ReservationsAfterStore : Prop :=
  ∀ (i : Instr) (s t : State), exec i s = .next t →
    ResvAfter s (s.eaOf i) t ∧ t.resv.Sublist s.resv ∧
      ((s.env.resvTracking = false ∨ s.resv = []) → t.resv = s.resv ∧ t.draws = s.draws) ∧
      (s.env.resvTracking = true → s.resv ≠ [] → t.draws = s.draws + 1)

/-- 20_memory.md R47, R52 ("never fewer"; the list of waiting stores is the model's, log 12): on a machine with several agents a completed instruction puts the eight bytes of `x[RS]` at EA to EA + 7 behind every store that waited before, of
whichever agent, drops none of them, and leaves memory itself as it was. -/
def Obligations.SeveralAgentsStoreWaits : Prop :=
  ∀ (i : Instr) (s t : State), s.alone = false → exec i s = .next t →
    t.mem = s.mem ∧ t.pending = s.pending ++ [⟨s.agent, (List.range 8).map (fun k =>
      ((s.eaOf i).toNat + k, (s.ctx.gpr[storedReg i]).extractLsb' (56 - 8 * k) 8))⟩]

/-! Memory and ordering. -/

/-- 20_memory.md R52 (the spec's own decision D12): on a machine with one agent every completed store is in memory before the next instruction, and the machine still has nothing waiting. -/
def Obligations.OneAgentStoresInProgramOrder : Prop :=
  ∀ (i : Instr) (s t : State), s.alone = true → exec i s = .next t →
    t.alone = true ∧ (∀ ag a, t.seenBy ag a = Memory.read t.mem a) ∧
    ∀ k < 8, Memory.read t.mem ((s.eaOf i).toNat + k) = some ((s.ctx.gpr[storedReg i]).extractLsb' (56 - 8 * k) 8)

/-- 20_memory.md R52: that an agent's own waiting byte becomes visible to the others changes nothing that same agent sees (`settle` is the model's, log 12). Of another agent's byte at the same address nothing is said:
once both have settled the agent sees the one that settled last. -/
def Obligations.SettlingKeepsOwnView : Prop :=
  ∀ (s : State) (ag a a' : Nat), (s.settle ag a).seenBy ag a' = s.seenBy ag a'

/-- 20_memory.md R47, R52 (the weakest values of `STORE_ATOMICITY` and `MEMORY_MODEL`, the defaults D11 and D12; `settle` is the model's, log 12): bytes written to different addresses may become visible in either order, by whichever
agents and out of whichever stores, with the same result. -/
def Obligations.SettlingDifferentAddressesCommutes : Prop :=
  ∀ (s : State) (ag ag' a a' : Nat), s.env.storeAtomicity = .bytes → s.env.memoryModel = .anyOrder → Memory.wf s.mem → a ≠ a' →
    (s.settle ag a).settle ag' a' = (s.settle ag' a').settle ag a

/-- The canonical form of memory (log 7): two memories in canonical form that read the same everywhere are equal data. -/
def Obligations.EqualReadsEqualMemories : Prop :=
  ∀ m m' : Memory, Memory.wf m → Memory.wf m' → (∀ a, Memory.read m a = Memory.read m' a) → m = m'

/-- 20_memory.md R48 (the spec's own inference from R43): on a machine with one agent writing the same doubleword twice leaves the same state as writing it once. -/
def Obligations.StoringTwiceIsStoringOnce : Prop :=
  ∀ (s : State) (ea : Addr) (v : Word), Memory.wf s.mem → s.alone = true → (s.memWrite ea v).memWrite ea v = s.memWrite ea v

/-- 20_memory.md R56 (the spec's own inference): a doubleword store accesses two cache lines exactly when EA mod 128 is above 120, else one. Cost only: no meaning uses it. -/
def Obligations.StraddlesLineAbove120 : Prop :=
  ∀ ea : Nat, (Config.lineAccesses ea = 2 ↔ ea % 128 > 120) ∧ (Config.lineAccesses ea = 1 ↔ ea % 128 ≤ 120)

/-! Encoding. -/

/-- 30_encoding.md R73 (the spec's own inference from R61, R62, R67): decoding the encoded word of a well-formed instruction gives it back, every operand at every value. -/
def Obligations.DecodeOfEncode : Prop := ∀ i : Instr, i.wf = true → decode (encode i) = .instr i

/-- 30_encoding.md R67: a word that decodes is the encoded word of the instruction it decodes to, which is well formed: no bit is dropped. -/
def Obligations.EncodeOfDecode : Prop := ∀ (w : InsnWord) (i : Instr), decode w = .instr i → i.wf = true ∧ encode i = w

/-- 30_encoding.md R68, R70 (the spec's own decisions D8, D20): the decoder is total, and answers `Undecoded` exactly for the words that match none of the four rows. -/
def Obligations.UndecodedExactlyOffTheMap : Prop :=
  ∀ w : InsnWord, decode w = .undecoded ↔
    (w &&& 0xFC000003#32 ≠ 0xF8000000#32 ∧ w &&& 0xFC000003#32 ≠ 0xF8000001#32 ∧
      w &&& 0xFC0007FF#32 ≠ 0x7C00016A#32 ∧ w &&& 0xFC0007FF#32 ≠ 0x7C00012A#32)

/-- 30_encoding.md R65: the displacement of a decoded `std` or `stdu` is the 14-bit field with two zero bits appended, sign-extended; equally the low 16 bits with the two lowest cleared; a multiple of 4 from −32768 to
+32764, both reached; its sign bit is bit 15. -/
def Obligations.DisplacementOfWord : Prop :=
  ∀ (w : InsnWord) (rs ra : Reg) (ds : Int), decode w = .instr (.std rs ra ds) ∨ decode w = .instr (.stdu rs ra ds) →
    dispWord ds = (w.extractLsb' 2 14 ++ 0#2).signExtend 64 ∧
    dispWord ds = ((w.extractLsb' 0 16) &&& 0xFFFC#16).signExtend 64 ∧
    ds % 4 = 0 ∧ -32768 ≤ ds ∧ ds ≤ 32764 ∧ (ds < 0 ↔ w.getLsbD 15 = true) ∧
    (ds = -32768 ↔ w.extractLsb' 2 14 = 0b10000000000000#14) ∧ (ds = 32764 ↔ w.extractLsb' 2 14 = 0b01111111111111#14)

/-- Words written out from 30_encoding.md R67 and listed in 95_test_vectors.md 2.1 decode to the instructions they stand for. -/
def Obligations.ListedWordsDecode : Prop :=
  decode 0xF8610008#32 = .instr (.std 3 1 8) ∧ decode 0xF821FF91#32 = .instr (.stdu 1 1 (-112)) ∧
  decode 0x7CC7416A#32 = .instr (.stdux 6 7 8) ∧ decode 0x7CA0212A#32 = .instr (.stdx 5 0 4) ∧
  decode 0xF8000002#32 = .undecoded ∧ decode 0x7C00012B#32 = .undecoded

/-! The whole machine. -/

/-- Every step keeps the invariant: parameters as a launch gives them (`END_PC` a multiple of 4, 70_reset_and_hazards.md R122); canonical memory; every stored or waiting byte inside `MEM_MAP` and outside `TEXT` (20_memory.md R50, R54); distinct agents; every
pc a multiple of 4 (10_state.md R23, the spec's own decision D3); every recorded stop of the closed list (60_exceptions.md R103; the record is the model's, log 18, and so is the list of waiting stores, log 12). -/
def Obligations.StepKeepsInvariant : Prop := ∀ s t : State, s.Inv → step s = .next t → t.Inv

/-- The reset state meets the invariant (its values are the model's choice, logs 1 to 12, 15 and 18). -/
def Obligations.ResetMeetsInvariant : Prop := State.reset.Inv

/-- 10_state.md R31: the parameters of a run are fixed for the run. -/
def Obligations.StepKeepsParameters : Prop := ∀ s t : State, step s = .next t → t.env = s.env

/-- 20_memory.md R50, R54 (the spec's own decisions D6, D9): no step changes a byte of memory at an address of `TEXT` or outside `MEM_MAP`. -/
def Obligations.TextAndUnmappedNeverWritten : Prop :=
  ∀ (s t : State) (a : Nat), s.Inv → step s = .next t →
    (Memory.read s.env.text a ≠ none ∨ ∀ r ∈ s.env.memMap, ¬ (r.base ≤ a ∧ a < r.base + r.size)) →
    Memory.read t.mem a = Memory.read s.mem a

/-- 10_state.md R23, 30_encoding.md R60: a step of an agent leaves its pc 4 higher, aligned and not wrapped (the refusals are the spec's own decisions D3, D4); a step of the machine moves the pc of no agent otherwise, and of none but
the executing one. -/
def Obligations.AgentStepAdvancesPcByFour : Prop :=
  (∀ s t : State, agentStep s = .next t → s.ctx.pc.toNat % 4 = 0 ∧ t.ctx.pc.toNat = s.ctx.pc.toNat + 4) ∧
  ∀ (s t : State) (ag : Nat) (c : Context), (s.agent :: s.parked.map Parked.id).Nodup → step s = .next t → s.contextOf ag = some c →
    ∃ d, t.contextOf ag = some d ∧ (d.pc = c.pc ∨ (ag = t.agent ∧ c.pc.toNat % 4 = 0 ∧ d.pc.toNat = c.pc.toNat + 4))
end

