-- ==== Sys2Proof/Laws/Decode.lean ====
section
/-! SUPPORT. The decoder row by row, and the bytes of an instruction word. -/

namespace Sys2Proof

theorem decode_eq (w : InsnWord) :
    decode w =
      if rowStd.matches w then .instr (rowStd.build w)
      else if rowStdu.matches w then .instr (rowStdu.build w)
      else if rowStdux.matches w then .instr (rowStdux.build w)
      else if rowStdx.matches w then .instr (rowStdx.build w)
      else .undecoded := rfl

/-- Two rows that both contain a word agree where both masks are set; no two rows of the opcode map do. -/
def OpcodeRow.disjoint (r q : OpcodeRow) : Bool := (r.pattern &&& q.mask &&& r.mask) != (q.pattern &&& r.mask &&& q.mask)

theorem opcodeMap_disjoint : opcodeMap.Pairwise (fun r q => r.disjoint q = true) := by
  simp only [opcodeMap]
  repeat' constructor
  all_goals simp [OpcodeRow.disjoint, rowStd, rowStdu, rowStdux, rowStdx]

/-! One lemma per row, and everything a decoded word can be. -/

theorem decode_of_rowStd {w : InsnWord} (h : w &&& 0xFC000003#32 = 0xF8000000#32) : decode w = .instr (rowStd.build w) := by
  rw [decode_eq]
  simp [OpcodeRow.matches, rowStd, h]

theorem decode_of_rowStdu {w : InsnWord} (h : w &&& 0xFC000003#32 = 0xF8000001#32) : decode w = .instr (rowStdu.build w) := by
  rw [decode_eq]
  simp [OpcodeRow.matches, rowStd, rowStdu, h]

/-- A word fixed under a wide mask is not any other pattern under a narrower one. -/
theorem and_ne_of_and_eq {w m m' p n : InsnWord} (h : w &&& m = p) (hm : m &&& m' = m') (hp : p &&& m' ≠ n) : w &&& m' ≠ n := by
  rwa [← hm, ← BitVec.and_assoc, h]

theorem decode_of_rowStdux {w : InsnWord} (h : w &&& 0xFC0007FF#32 = 0x7C00016A#32) : decode w = .instr (rowStdux.build w) := by
  have h1 := and_ne_of_and_eq (m' := 0xFC000003#32) (n := 0xF8000000#32) h (by decide) (by decide)
  have h2 := and_ne_of_and_eq (m' := 0xFC000003#32) (n := 0xF8000001#32) h (by decide) (by decide)
  rw [decode_eq]
  simp [OpcodeRow.matches, rowStd, rowStdu, rowStdux, h, h1, h2]

theorem decode_of_rowStdx {w : InsnWord} (h : w &&& 0xFC0007FF#32 = 0x7C00012A#32) : decode w = .instr (rowStdx.build w) := by
  have h1 := and_ne_of_and_eq (m' := 0xFC000003#32) (n := 0xF8000000#32) h (by decide) (by decide)
  have h2 := and_ne_of_and_eq (m' := 0xFC000003#32) (n := 0xF8000001#32) h (by decide) (by decide)
  rw [decode_eq]
  simp [OpcodeRow.matches, rowStd, rowStdu, rowStdux, rowStdx, h, h1, h2]

theorem decode_cases {w : InsnWord} {i : Instr} (h : decode w = .instr i) :
    (w &&& 0xFC000003#32 = 0xF8000000#32 ∧ i = rowStd.build w) ∨ (w &&& 0xFC000003#32 = 0xF8000001#32 ∧ i = rowStdu.build w) ∨
      (w &&& 0xFC0007FF#32 = 0x7C00016A#32 ∧ i = rowStdux.build w) ∨ (w &&& 0xFC0007FF#32 = 0x7C00012A#32 ∧ i = rowStdx.build w) := by
  rw [decode_eq] at h
  split at h
  · rename_i hm
    exact .inl ⟨by simpa [OpcodeRow.matches, rowStd] using hm, by simpa using h.symm⟩
  split at h
  · rename_i hm
    exact .inr (.inl ⟨by simpa [OpcodeRow.matches, rowStdu] using hm, by simpa using h.symm⟩)
  split at h
  · rename_i hm
    exact .inr (.inr (.inl ⟨by simpa [OpcodeRow.matches, rowStdux] using hm, by simpa using h.symm⟩))
  split at h
  · rename_i hm
    exact .inr (.inr (.inr ⟨by simpa [OpcodeRow.matches, rowStdx] using hm, by simpa using h.symm⟩))
  · cases h

/-! The fields of an encoded word. -/

theorem extractLsb'_or (a b : InsnWord) (l n : Nat) : (a ||| b).extractLsb' l n = a.extractLsb' l n ||| b.extractLsb' l n := by
  apply BitVec.eq_of_getLsbD_eq
  intro i hi
  simp [hi]

theorem putReg_extract_outside (r : Reg) (l l' n : Nat) (h : l + 5 ≤ l' ∨ l' + n ≤ l) : (putReg r l).extractLsb' l' n = 0#n := by
  apply BitVec.eq_of_getLsbD_eq
  intro i hi
  simp only [putReg, BitVec.getLsbD_extractLsb', BitVec.getLsbD_shiftLeft, BitVec.zeroExtend, BitVec.getLsbD_setWidth, BitVec.getLsbD_zero]
  rcases h with h | h
  · have : (BitVec.ofFin r : BitVec 5).getLsbD (l' + i - l) = false := BitVec.getLsbD_of_ge _ _ (by omega)
    simp [this]
  · have : l' + i < l := by omega
    simp [this]

theorem putReg_extract_field (r : Reg) (l : Nat) (hl : l + 5 ≤ 32) : (putReg r l).extractLsb' l 5 = BitVec.ofFin r := by
  apply BitVec.eq_of_getLsbD_eq
  intro i hi
  have e : l + i - l = i := by omega
  have e1 : ¬ (l + i < l) := by omega
  have e2 : l + i < 32 := by omega
  have e3 : i < 32 := by omega
  simp only [BitVec.getLsbD_extractLsb', putReg, BitVec.getLsbD_shiftLeft, BitVec.zeroExtend, BitVec.getLsbD_setWidth, e, e1, e2, e3, hi]
  simp

theorem putDisp_extract_high (ds : Int) (l n : Nat) (h : 16 ≤ l) : (putDisp ds).extractLsb' l n = 0#n := by
  apply BitVec.eq_of_getLsbD_eq
  intro i hi
  simp only [putDisp, BitVec.getLsbD_extractLsb', BitVec.zeroExtend, BitVec.getLsbD_setWidth, BitVec.getLsbD_zero]
  have : (BitVec.ofInt 16 ds &&& 65532#16).getLsbD (l + i) = false := BitVec.getLsbD_of_ge _ _ (by omega)
  simp [this]

/-- A word is the four bytes it is stored as. -/
theorem wordOfBytes_wordBytes (w : InsnWord) :
    wordOfBytes (w.extractLsb' 24 8) (w.extractLsb' 16 8) (w.extractLsb' 8 8) (w.extractLsb' 0 8) = w := by
  rw [wordOfBytes, BitVec.extractLsb'_append_extractLsb'_eq_extractLsb' (start₁ := 16) (len₁ := 8) rfl,
    BitVec.extractLsb'_append_extractLsb'_eq_extractLsb' (start₁ := 8) (len₁ := 8) rfl,
    BitVec.extractLsb'_append_extractLsb'_eq_extractLsb' (start₁ := 0) (len₁ := 8) rfl]
  simp

theorem decodeBytes_wordBytes (w : InsnWord) : decodeBytes (wordBytes w) = decode w := by
  simp only [decodeBytes, wordBytes, wordOfBytes_wordBytes]

end Sys2Proof
end

