-- ==== Sys2Proof/Laws/Memory.lean ====
section
/-! SUPPORT. The laws of byte memory: read after write, the canonical form is kept, equal reads make equal memories. -/

namespace Sys2Proof.Machine

@[simp] theorem Memory.read_nil (a : Nat) : Memory.read [] a = none := rfl

theorem Memory.read_cons (c : Host.Cell) (m : Memory) (a : Nat) :
    Memory.read (c :: m) a = if c.1 = a then some c.2 else Memory.read m a := rfl

@[simp] theorem Memory.read_write_same (m : Memory) (a : Nat) (b : Byte) : Memory.read (Memory.write m a b) a = some b := by
  induction m with
  | nil => simp [Memory.write, Memory.read]
  | cons c m ih =>
    unfold Memory.write
    split
    · simp [Memory.read]
    · split
      · simp [Memory.read]
      · simp [Memory.read, *]

@[simp] theorem Memory.read_write_other (m : Memory) {a a' : Nat} (b : Byte) (h : a' ≠ a) :
    Memory.read (Memory.write m a b) a' = Memory.read m a' := by
  induction m with
  | nil => simp [Memory.write, Memory.read, h.symm]
  | cons c m ih =>
    unfold Memory.write
    split
    · simp [Memory.read, h.symm]
    · split
      · rename_i hc
        subst hc
        simp [Memory.read, h.symm]
      · simp [Memory.read, ih]

theorem Memory.read_write (m : Memory) (a a' : Nat) (b : Byte) :
    Memory.read (Memory.write m a b) a' = if a' = a then some b else Memory.read m a' := by
  split
  · subst_vars; simp
  · rw [Memory.read_write_other _ _ ‹_›]

/-- A write lists the new cell and old cells only. -/
theorem Memory.mem_write {m : Memory} {a : Nat} {b : Byte} {c : Host.Cell} (h : c ∈ Memory.write m a b) : c = (a, b) ∨ c ∈ m := by
  induction m with
  | nil => simpa [Memory.write] using h
  | cons d m ih =>
    unfold Memory.write at h
    split at h
    · simpa using h
    · split at h
      · rcases List.mem_cons.1 h with h | h
        · exact .inl h
        · exact .inr (List.mem_cons_of_mem _ h)
      · rcases List.mem_cons.1 h with h | h
        · exact .inr (h ▸ List.mem_cons_self)
        · exact (ih h).imp_right (List.mem_cons_of_mem _)

theorem Memory.write_wf {m : Memory} (h : Memory.wf m) (a : Nat) (b : Byte) : Memory.wf (Memory.write m a b) := by
  induction m with
  | nil => simp [Memory.write, Memory.wf]
  | cons c m ih =>
    obtain ⟨hc, hm⟩ := List.pairwise_cons.1 h
    unfold Memory.write
    split
    · rename_i hlt
      refine List.pairwise_cons.2 ⟨fun d hd => ?_, h⟩
      rcases List.mem_cons.1 hd with rfl | hd
      · exact hlt
      · exact hlt.trans (hc d hd)
    · split
      · rename_i heq
        exact List.pairwise_cons.2 ⟨fun d hd => heq ▸ hc d hd, hm⟩
      · refine List.pairwise_cons.2 ⟨fun d hd => ?_, ih hm⟩
        rcases Memory.mem_write hd with rfl | hd
        · simp only; omega
        · exact hc d hd

/-- A cell list before which every listed address lies reads nothing there. -/
theorem Memory.read_eq_none_of_lt {m : Memory} {a : Nat} (h : ∀ c ∈ m, a < c.1) : Memory.read m a = none := by
  induction m with
  | nil => rfl
  | cons c m ih =>
    have hc := h c List.mem_cons_self
    rw [Memory.read_cons, if_neg (by omega)]
    exact ih fun d hd => h d (List.mem_cons_of_mem _ hd)

/-- A listed address is a read that answers; what is read is listed. -/
theorem Memory.mem_of_read {m : Memory} {a : Nat} {b : Byte} (h : Memory.read m a = some b) : (a, b) ∈ m := by
  induction m with
  | nil => simp at h
  | cons c m ih =>
    rw [Memory.read_cons] at h
    split at h
    · rename_i hc
      obtain ⟨c1, c2⟩ := c
      simp_all
    · exact List.mem_cons_of_mem _ (ih h)

@[simp] theorem Memory.writeAll_nil (m : Memory) : Memory.writeAll m [] = m := rfl

@[simp] theorem Memory.writeAll_cons (m : Memory) (c : Host.Cell) (cs : List Host.Cell) :
    Memory.writeAll m (c :: cs) = Memory.write (Memory.writeAll m cs) c.1 c.2 := rfl

/-- Everything a write of several bytes does to reads: the listed bytes, else what was there. -/
theorem Memory.read_writeAll (m : Memory) (cs : List Host.Cell) (a : Nat) :
    Memory.read (Memory.writeAll m cs) a = (Memory.read cs a).or (Memory.read m a) := by
  induction cs with
  | nil => simp
  | cons c cs ih =>
    rw [Memory.writeAll_cons, Memory.read_write, Memory.read_cons, ih]
    by_cases h : a = c.1
    · simp [h]
    · simp [h, Ne.symm h]

theorem Memory.writeAll_wf {m : Memory} (h : Memory.wf m) (cs : List Host.Cell) : Memory.wf (Memory.writeAll m cs) := by
  induction cs with
  | nil => exact h
  | cons c cs ih => exact Memory.write_wf ih _ _

theorem Memory.mem_writeAll {m : Memory} {cs : List Host.Cell} {c : Host.Cell} (h : c ∈ Memory.writeAll m cs) : c ∈ cs ∨ c ∈ m := by
  induction cs with
  | nil => exact .inr h
  | cons d cs ih =>
    rcases Memory.mem_write h with h | h
    · rw [h]
      exact .inl List.mem_cons_self
    · exact (ih h).imp_left (List.mem_cons_of_mem _)

/-- Reading among the cells of one address. -/
theorem Memory.read_filter_eq (cs : List Host.Cell) (a x : Nat) :
    Memory.read (cs.filter (fun c => c.1 == a)) x = if x = a then Memory.read cs a else none := by
  induction cs with
  | nil => simp
  | cons c cs ih =>
    by_cases hx : x = a
    · subst hx
      rw [if_pos rfl] at ih ⊢
      by_cases hc : c.1 = x <;> simp [hc, Memory.read_cons, ih]
    · rw [if_neg hx] at ih ⊢
      by_cases hc : c.1 = a
      · simp [hc, Memory.read_cons, Ne.symm hx, ih]
      · simp [hc, ih]

/-- Reading among the cells of the other addresses. -/
theorem Memory.read_filter_ne (cs : List Host.Cell) (a x : Nat) :
    Memory.read (cs.filter (fun c => c.1 != a)) x = if x = a then none else Memory.read cs x := by
  induction cs with
  | nil => simp
  | cons c cs ih =>
    by_cases hx : x = a
    · subst hx
      rw [if_pos rfl] at ih ⊢
      by_cases hc : c.1 = x <;> simp [hc, Memory.read_cons, ih]
    · rw [if_neg hx] at ih ⊢
      by_cases hc : c.1 = a
      · simp [hc, Memory.read_cons, Ne.symm hx, ih]
      · by_cases hcx : c.1 = x <;> simp [hc, hcx, hx, Memory.read_cons, ih]

theorem loadText_wf {m : Memory} (h : Memory.wf m) (a : Nat) (bs : List Byte) : Memory.wf (loadText m a bs) := by
  induction bs generalizing m a with
  | nil => exact h
  | cons b bs ih => exact ih (Memory.write_wf h _ _) _

/-! The cells of a doubleword store. -/

theorem mem_offsets {k : Nat} : k ∈ offsets ↔ k < 8 := by
  simp [offsets]
  omega

/-- The cells of a store are its eight bytes. -/
theorem mem_storeCells {ea : Addr} {v : Word} {c : Host.Cell} :
    c ∈ storeCells ea v ↔ ∃ k < 8, c = (ea.toNat + k, byteOf v k) := by
  simp only [storeCells, List.mem_map, mem_offsets]
  exact ⟨fun ⟨k, hk, h⟩ => ⟨k, hk, h.symm⟩, fun ⟨k, hk, h⟩ => ⟨k, hk, h.symm⟩⟩

/-- Byte `k` of the doubleword is the cell at `EA + k`. -/
theorem read_storeCells (ea : Addr) (v : Word) {k : Nat} (hk : k < 8) :
    Memory.read (storeCells ea v) (ea.toNat + k) = some (byteOf v k) := by
  simp only [storeCells, offsets, List.map_cons, List.map_nil]
  obtain rfl | rfl | rfl | rfl | rfl | rfl | rfl | rfl :
      k = 0 ∨ k = 1 ∨ k = 2 ∨ k = 3 ∨ k = 4 ∨ k = 5 ∨ k = 6 ∨ k = 7 := by omega
  all_goals simp [Memory.read_cons]

theorem read_storeCells_other (ea : Addr) (v : Word) {a : Nat} (h : a < ea.toNat ∨ ea.toNat + 8 ≤ a) :
    Memory.read (storeCells ea v) a = none := by
  cases hr : Memory.read (storeCells ea v) a with
  | none => rfl
  | some b =>
    obtain ⟨k, hk, he⟩ := mem_storeCells.1 (Memory.mem_of_read hr)
    have : a = ea.toNat + k := congrArg Prod.fst he
    omega

theorem storeCells_wf (ea : Addr) (v : Word) : Memory.wf (storeCells ea v) := by
  simp [storeCells, offsets, Memory.wf]

/-- The eight bytes after the eight writes. -/
theorem read_writeAll_storeCells (m : Memory) (ea : Addr) (v : Word) {k : Nat} (hk : k < 8) :
    Memory.read (Memory.writeAll m (storeCells ea v)) (ea.toNat + k) = some (byteOf v k) := by
  rw [Memory.read_writeAll, read_storeCells _ _ hk, Option.some_or]

theorem read_writeAll_storeCells_other (m : Memory) (ea : Addr) (v : Word) {a : Nat} (h : a < ea.toNat ∨ ea.toNat + 8 ≤ a) :
    Memory.read (Memory.writeAll m (storeCells ea v)) a = Memory.read m a := by
  rw [Memory.read_writeAll, read_storeCells_other _ _ h, Option.none_or]

end Sys2Proof.Machine
end

