-- ==== Sys2Proof/Laws/State.lean ====
section
/-! SUPPORT. The fields each state update leaves and changes, so that no later proof unfolds a record update. -/

namespace Sys2Proof.Machine

variable (s : State) (r : Reg) (v : Word) (ea : Addr) (ag a : Nat)

/-! `writeGpr`. -/

@[simp] theorem State.writeGpr_pc : (s.writeGpr r v).ctx.pc = s.ctx.pc := rfl
@[simp] theorem State.writeGpr_gpr : (s.writeGpr r v).ctx.gpr = s.ctx.gpr.set r v := rfl
@[simp] theorem State.writeGpr_cr : (s.writeGpr r v).ctx.cr = s.ctx.cr := rfl
@[simp] theorem State.writeGpr_xer : (s.writeGpr r v).ctx.xer = s.ctx.xer := rfl
@[simp] theorem State.writeGpr_fpr : (s.writeGpr r v).ctx.fpr = s.ctx.fpr := rfl
@[simp] theorem State.writeGpr_vr : (s.writeGpr r v).ctx.vr = s.ctx.vr := rfl
@[simp] theorem State.writeGpr_stop : (s.writeGpr r v).ctx.stop = s.ctx.stop := rfl
@[simp] theorem State.writeGpr_agent : (s.writeGpr r v).agent = s.agent := rfl
@[simp] theorem State.writeGpr_parked : (s.writeGpr r v).parked = s.parked := rfl
@[simp] theorem State.writeGpr_mem : (s.writeGpr r v).mem = s.mem := rfl
@[simp] theorem State.writeGpr_pending : (s.writeGpr r v).pending = s.pending := rfl
@[simp] theorem State.writeGpr_resv : (s.writeGpr r v).resv = s.resv := rfl
@[simp] theorem State.writeGpr_turns : (s.writeGpr r v).turns = s.turns := rfl
@[simp] theorem State.writeGpr_draws : (s.writeGpr r v).draws = s.draws := rfl
@[simp] theorem State.writeGpr_env : (s.writeGpr r v).env = s.env := rfl
@[simp] theorem State.writeGpr_seenBy : (s.writeGpr r v).seenBy ag a = s.seenBy ag a := rfl
@[simp] theorem State.writeGpr_alone : (s.writeGpr r v).alone = s.alone := rfl

/-! `advancePc`. -/

@[simp] theorem State.advancePc_pc : s.advancePc.ctx.pc = s.ctx.pc + 4#32 := rfl
@[simp] theorem State.advancePc_gpr : s.advancePc.ctx.gpr = s.ctx.gpr := rfl
@[simp] theorem State.advancePc_cr : s.advancePc.ctx.cr = s.ctx.cr := rfl
@[simp] theorem State.advancePc_xer : s.advancePc.ctx.xer = s.ctx.xer := rfl
@[simp] theorem State.advancePc_fpr : s.advancePc.ctx.fpr = s.ctx.fpr := rfl
@[simp] theorem State.advancePc_vr : s.advancePc.ctx.vr = s.ctx.vr := rfl
@[simp] theorem State.advancePc_stop : s.advancePc.ctx.stop = s.ctx.stop := rfl
@[simp] theorem State.advancePc_agent : s.advancePc.agent = s.agent := rfl
@[simp] theorem State.advancePc_parked : s.advancePc.parked = s.parked := rfl
@[simp] theorem State.advancePc_mem : s.advancePc.mem = s.mem := rfl
@[simp] theorem State.advancePc_pending : s.advancePc.pending = s.pending := rfl
@[simp] theorem State.advancePc_resv : s.advancePc.resv = s.resv := rfl
@[simp] theorem State.advancePc_turns : s.advancePc.turns = s.turns := rfl
@[simp] theorem State.advancePc_draws : s.advancePc.draws = s.draws := rfl
@[simp] theorem State.advancePc_env : s.advancePc.env = s.env := rfl
@[simp] theorem State.advancePc_seenBy : s.advancePc.seenBy ag a = s.seenBy ag a := rfl
@[simp] theorem State.advancePc_alone : s.advancePc.alone = s.alone := rfl
@[simp] theorem State.advancePc_readGpr : s.advancePc.readGpr r = s.readGpr r := rfl

/-! `popTurn`. -/

@[simp] theorem State.popTurn_ctx : s.popTurn.ctx = s.ctx := rfl
@[simp] theorem State.popTurn_agent : s.popTurn.agent = s.agent := rfl
@[simp] theorem State.popTurn_parked : s.popTurn.parked = s.parked := rfl
@[simp] theorem State.popTurn_mem : s.popTurn.mem = s.mem := rfl
@[simp] theorem State.popTurn_pending : s.popTurn.pending = s.pending := rfl
@[simp] theorem State.popTurn_resv : s.popTurn.resv = s.resv := rfl
@[simp] theorem State.popTurn_turns : s.popTurn.turns = s.turns.tail := rfl
@[simp] theorem State.popTurn_draws : s.popTurn.draws = s.draws := rfl
@[simp] theorem State.popTurn_env : s.popTurn.env = s.env := rfl
@[simp] theorem State.popTurn_seenBy : s.popTurn.seenBy ag a = s.seenBy ag a := rfl
@[simp] theorem State.popTurn_alone : s.popTurn.alone = s.alone := rfl
@[simp] theorem State.popTurn_contexts : s.popTurn.contexts = s.contexts := rfl
@[simp] theorem State.popTurn_runner : s.popTurn.runner ag = s.runner ag := rfl
@[simp] theorem State.popTurn_contextOf : s.popTurn.contextOf ag = s.contextOf ag := rfl

theorem State.popTurn_of_no_turn (h : s.turns = []) : s.popTurn = s := by
  cases s
  simp only at h
  subst h
  rfl

/-! `memWrite`: it changes `mem` or `pending` and nothing else. -/

@[simp] theorem State.memWrite_ctx : (s.memWrite ea v).ctx = s.ctx := by unfold State.memWrite; split <;> rfl
@[simp] theorem State.memWrite_agent : (s.memWrite ea v).agent = s.agent := by unfold State.memWrite; split <;> rfl
@[simp] theorem State.memWrite_parked : (s.memWrite ea v).parked = s.parked := by unfold State.memWrite; split <;> rfl
@[simp] theorem State.memWrite_resv : (s.memWrite ea v).resv = s.resv := by unfold State.memWrite; split <;> rfl
@[simp] theorem State.memWrite_turns : (s.memWrite ea v).turns = s.turns := by unfold State.memWrite; split <;> rfl
@[simp] theorem State.memWrite_draws : (s.memWrite ea v).draws = s.draws := by unfold State.memWrite; split <;> rfl
@[simp] theorem State.memWrite_env : (s.memWrite ea v).env = s.env := by unfold State.memWrite; split <;> rfl

theorem State.memWrite_of_alone (h : s.alone = true) :
    s.memWrite ea v = { s with mem := Memory.writeAll s.mem (storeCells ea v) } := by
  simp [State.memWrite, h]

theorem State.memWrite_of_not_alone (h : s.alone = false) :
    s.memWrite ea v = { s with pending := s.pending ++ [⟨s.agent, storeCells ea v⟩] } := by
  simp [State.memWrite, h]

/-! `reservationsInvalidate`: it changes `resv` and `draws` and nothing else. -/

@[simp] theorem State.reservationsInvalidate_ctx : (s.reservationsInvalidate ea).ctx = s.ctx := by
  unfold State.reservationsInvalidate; split <;> rfl
@[simp] theorem State.reservationsInvalidate_agent : (s.reservationsInvalidate ea).agent = s.agent := by
  unfold State.reservationsInvalidate; split <;> rfl
@[simp] theorem State.reservationsInvalidate_parked : (s.reservationsInvalidate ea).parked = s.parked := by
  unfold State.reservationsInvalidate; split <;> rfl
@[simp] theorem State.reservationsInvalidate_mem : (s.reservationsInvalidate ea).mem = s.mem := by
  unfold State.reservationsInvalidate; split <;> rfl
@[simp] theorem State.reservationsInvalidate_pending : (s.reservationsInvalidate ea).pending = s.pending := by
  unfold State.reservationsInvalidate; split <;> rfl
@[simp] theorem State.reservationsInvalidate_turns : (s.reservationsInvalidate ea).turns = s.turns := by
  unfold State.reservationsInvalidate; split <;> rfl
@[simp] theorem State.reservationsInvalidate_env : (s.reservationsInvalidate ea).env = s.env := by
  unfold State.reservationsInvalidate; split <;> rfl
@[simp] theorem State.reservationsInvalidate_alone : (s.reservationsInvalidate ea).alone = s.alone := by
  unfold State.reservationsInvalidate; split <;> rfl
@[simp] theorem State.reservationsInvalidate_seenBy : (s.reservationsInvalidate ea).seenBy ag a = s.seenBy ag a := by
  unfold State.reservationsInvalidate; split <;> rfl

/-! The two memory effects do not look at the executing agent's context. -/

theorem State.reservationsInvalidate_withCtx (c : Context) :
    ({ s with ctx := c } : State).reservationsInvalidate ea = { s.reservationsInvalidate ea with ctx := c } := by
  cases h : (s.env.resvTracking && !s.resv.isEmpty) <;> simp [State.reservationsInvalidate, h]

theorem State.memWrite_withCtx (c : Context) :
    ({ s with ctx := c } : State).memWrite ea v = { s.memWrite ea v with ctx := c } := by
  cases h : (s.parked.isEmpty && s.pending.isEmpty) <;> simp [State.memWrite, State.alone, h]

theorem State.storeEffects_withCtx (c : Context) :
    ({ s with ctx := c } : State).storeEffects ea v = { s.storeEffects ea v with ctx := { c with pc := c.pc + 4#32 } } := by
  rw [State.storeEffects, State.reservationsInvalidate_withCtx, State.memWrite_withCtx]
  simp [State.storeEffects, State.advancePc]

/-! `settle`: it changes `mem` and `pending` and nothing else. -/

@[simp] theorem State.settle_ctx : (s.settle ag a).ctx = s.ctx := by unfold State.settle; repeat' (first | rfl | split)
@[simp] theorem State.settle_agent : (s.settle ag a).agent = s.agent := by unfold State.settle; repeat' (first | rfl | split)
@[simp] theorem State.settle_parked : (s.settle ag a).parked = s.parked := by unfold State.settle; repeat' (first | rfl | split)
@[simp] theorem State.settle_resv : (s.settle ag a).resv = s.resv := by unfold State.settle; repeat' (first | rfl | split)
@[simp] theorem State.settle_turns : (s.settle ag a).turns = s.turns := by unfold State.settle; repeat' (first | rfl | split)
@[simp] theorem State.settle_draws : (s.settle ag a).draws = s.draws := by unfold State.settle; repeat' (first | rfl | split)
@[simp] theorem State.settle_env : (s.settle ag a).env = s.env := by unfold State.settle; repeat' (first | rfl | split)

/-! `switchTo`: it changes `ctx`, `agent` and `parked` and nothing else. -/

theorem State.switchTo_shared :
    (s.switchTo ag).mem = s.mem ∧ (s.switchTo ag).pending = s.pending ∧ (s.switchTo ag).resv = s.resv ∧
      (s.switchTo ag).turns = s.turns ∧ (s.switchTo ag).draws = s.draws ∧ (s.switchTo ag).env = s.env := by
  unfold State.switchTo
  split
  · simp
  · split <;> simp

@[simp] theorem State.switchTo_mem : (s.switchTo ag).mem = s.mem := (s.switchTo_shared ag).1
@[simp] theorem State.switchTo_pending : (s.switchTo ag).pending = s.pending := (s.switchTo_shared ag).2.1
@[simp] theorem State.switchTo_resv : (s.switchTo ag).resv = s.resv := (s.switchTo_shared ag).2.2.1
@[simp] theorem State.switchTo_turns : (s.switchTo ag).turns = s.turns := (s.switchTo_shared ag).2.2.2.1
@[simp] theorem State.switchTo_draws : (s.switchTo ag).draws = s.draws := (s.switchTo_shared ag).2.2.2.2.1
@[simp] theorem State.switchTo_env : (s.switchTo ag).env = s.env := (s.switchTo_shared ag).2.2.2.2.2
@[simp] theorem State.switchTo_self : s.switchTo s.agent = s := by simp [State.switchTo]

/-! `withNamedOnly`: it changes the condition register, XER and the floating-point and vector files and nothing else. -/

variable (cr : Nat) (xer : Xer) (f w : Vector Nat 32)

@[simp] theorem State.withNamedOnly_gpr : (s.withNamedOnly cr xer f w).ctx.gpr = s.ctx.gpr := rfl
@[simp] theorem State.withNamedOnly_pc : (s.withNamedOnly cr xer f w).ctx.pc = s.ctx.pc := rfl
@[simp] theorem State.withNamedOnly_cr : (s.withNamedOnly cr xer f w).cr = cr := rfl
@[simp] theorem State.withNamedOnly_xer : (s.withNamedOnly cr xer f w).xer = xer := rfl
@[simp] theorem State.withNamedOnly_env : (s.withNamedOnly cr xer f w).env = s.env := rfl
@[simp] theorem State.withNamedOnly_readGpr : (s.withNamedOnly cr xer f w).readGpr r = s.readGpr r := rfl

end Sys2Proof.Machine
end

