-- ==== Sys2Proof/Laws/Pending.lean ====
section
/-! SUPPORT. The waiting stores of several agents: what an agent sees, and everything a settle turn can do. -/

namespace Sys2Proof.Machine

theorem lastPending_append (ag a : Nat) (ps qs : List PendingStore) :
    lastPending ag a (ps ++ qs) = (lastPending ag a qs).or (lastPending ag a ps) := by
  induction ps with
  | nil => simp [lastPending]
  | cons p ps ih =>
    simp only [List.cons_append, lastPending, ih]
    cases lastPending ag a qs <;> simp

theorem lastPending_cons (ag a : Nat) (p : PendingStore) (ps : List PendingStore) :
    lastPending ag a (p :: ps) = (lastPending ag a ps).or (p.byteFor ag a) := by
  rw [lastPending]
  cases lastPending ag a ps <;> rfl

theorem lastPending_eq_none {ag a : Nat} {ps : List PendingStore} (h : ∀ p ∈ ps, p.byteFor ag a = none) :
    lastPending ag a ps = none := by
  induction ps with
  | nil => rfl
  | cons p ps ih => rw [lastPending_cons, ih fun q hq => h q (List.mem_cons_of_mem _ hq), h p List.mem_cons_self, Option.none_or]

/-- What an agent sees, as one expression. -/
theorem State.seenBy_eq (s : State) (ag a : Nat) : s.seenBy ag a = (lastPending ag a s.pending).or (Memory.read s.mem a) := by
  rw [State.seenBy]
  cases lastPending ag a s.pending <;> rfl

/-- On a machine with one agent what is seen is memory. -/
theorem State.pending_of_alone {s : State} (h : s.alone = true) : s.pending = [] := by
  simpa [State.alone] using (Bool.and_eq_true_iff.1 h).2

/-- The executing agent sees the eight bytes it stored. -/
theorem State.memWrite_seen (s : State) (ea : Addr) (v : Word) {k : Nat} (hk : k < 8) :
    (s.memWrite ea v).seenBy s.agent (ea.toNat + k) = some (byteOf v k) := by
  cases h : s.alone
  · simp [State.memWrite_of_not_alone _ _ _ h, State.seenBy_eq, lastPending_append, lastPending, PendingStore.byteFor, read_storeCells _ _ hk]
  · simp [State.memWrite_of_alone _ _ _ h, State.seenBy_eq, State.pending_of_alone h, lastPending, read_writeAll_storeCells _ _ _ hk]

/-- Every agent sees every other address as before. -/
theorem State.memWrite_seen_other (s : State) (ea : Addr) (v : Word) (ag : Nat) {a : Nat} (h : a < ea.toNat ∨ ea.toNat + 8 ≤ a) :
    (s.memWrite ea v).seenBy ag a = s.seenBy ag a := by
  cases ha : s.alone
  · simp [State.memWrite_of_not_alone _ _ _ ha, State.seenBy_eq, lastPending_append, lastPending, PendingStore.byteFor, read_storeCells_other _ _ h]
  · simp [State.memWrite_of_alone _ _ _ ha, State.seenBy_eq, read_writeAll_storeCells_other _ _ _ h]

/-- With several agents, what the others see is as before. -/
theorem State.memWrite_seen_by_others (s : State) (ea : Addr) (v : Word) {ag : Nat} (a : Nat) (h : ag ≠ s.agent)
    (hs : s.alone = false) : (s.memWrite ea v).seenBy ag a = s.seenBy ag a := by
  simp [State.memWrite_of_not_alone _ _ _ hs, State.seenBy_eq, lastPending_append, lastPending, PendingStore.byteFor, Ne.symm h]

/-- The split is at the first waiting store of the agent that has a byte at the address. -/
theorem splitPending_some {ag a : Nat} {ps xs ys : List PendingStore} {p : PendingStore} (h : splitPending ag a ps = some (xs, p, ys)) :
    ps = xs ++ p :: ys ∧ (p.byteFor ag a).isSome = true ∧ ∀ q ∈ xs, q.byteFor ag a = none := by
  induction ps generalizing xs with
  | nil => simp [splitPending] at h
  | cons q ps ih =>
    unfold splitPending at h
    split at h
    · rename_i hq
      simp only [Option.some.injEq, Prod.mk.injEq] at h
      obtain ⟨rfl, rfl, rfl⟩ := h
      exact ⟨rfl, hq, by simp⟩
    · rename_i hq
      split at h
      · rename_i hs
        simp only [Option.some.injEq, Prod.mk.injEq] at h
        obtain ⟨rfl, rfl, rfl⟩ := h
        obtain ⟨rfl, hp, hx⟩ := ih hs
        refine ⟨rfl, hp, fun r hr => ?_⟩
        rcases List.mem_cons.1 hr with rfl | hr
        · simpa using hq
        · exact hx r hr
      · cases h

theorem splitPending_none {ag a : Nat} {ps : List PendingStore} : splitPending ag a ps = none ↔ ∀ p ∈ ps, p.byteFor ag a = none := by
  induction ps with
  | nil => simp [splitPending]
  | cons p ps ih =>
    unfold splitPending
    rw [List.forall_mem_cons, ← ih]
    cases hp : p.byteFor ag a <;> cases splitPending ag a ps <;> simp

/-- The split, found from the waiting stores themselves. -/
theorem splitPending_append {ag a : Nat} {xs ys : List PendingStore} {p : PendingStore} (hp : (p.byteFor ag a).isSome = true)
    (hx : ∀ q ∈ xs, q.byteFor ag a = none) : splitPending ag a (xs ++ p :: ys) = some (xs, p, ys) := by
  induction xs with
  | nil => simp [splitPending, hp]
  | cons q xs ih => simp [splitPending, hx q List.mem_cons_self, ih fun r hr => hx r (List.mem_cons_of_mem _ hr)]

/-- Everything a settle turn can do: nothing, or the bytes that become visible move from one waiting store to memory. -/
theorem State.settle_cases (s : State) (ag a : Nat) :
    s.settle ag a = s ∨
      ∃ xs p ys, s.pending = xs ++ p :: ys ∧ (p.byteFor ag a).isSome = true ∧ (∀ q ∈ xs, q.byteFor ag a = none) ∧
        s.env.mayOvertake ag xs (s.env.settling a p.cells) = true ∧
        s.settle ag a = { s with mem := Memory.writeAll s.mem (s.env.settling a p.cells), pending := xs ++ (s.env.leftWaiting a p ++ ys) } := by
  unfold State.settle
  split
  · rename_i xs p ys hs
    obtain ⟨hps, hp, hx⟩ := splitPending_some hs
    split
    · exact .inr ⟨xs, p, ys, hps, hp, hx, ‹_›, rfl⟩
    · exact .inl rfl
  · exact .inl rfl

/-- What becomes visible is among the store's bytes. -/
theorem Env.mem_settling {e : Env} {a : Nat} {cells : List Host.Cell} {c : Host.Cell} (h : c ∈ e.settling a cells) : c ∈ cells := by
  unfold Env.settling at h
  split at h
  · exact h
  · exact List.mem_of_mem_filter h

/-- What goes on waiting is a store of the same agent with some of the bytes, never an empty one. -/
theorem Env.mem_leftWaiting {e : Env} {a : Nat} {p q : PendingStore} (h : q ∈ e.leftWaiting a p) :
    q.agent = p.agent ∧ q.cells = p.cells.filter (fun c => c.1 != a) ∧ q.cells ≠ [] := by
  unfold Env.leftWaiting at h
  split at h
  · simp at h
  · split at h
    · simp at h
    · rename_i hf
      obtain rfl := List.mem_singleton.1 h
      exact ⟨rfl, hf.symm, by simp⟩

/-- Each byte of a store for its agent is either visible or goes on waiting. -/
theorem Env.settling_leftWaiting (e : Env) (a x : Nat) (p : PendingStore) :
    (lastPending p.agent x (e.leftWaiting a p)).or (Memory.read (e.settling a p.cells) x) = Memory.read p.cells x := by
  unfold Env.leftWaiting Env.settling
  cases e.storeAtomicity with
  | whole => simp [lastPending]
  | bytes =>
    have hn := Memory.read_filter_ne p.cells a x
    simp only [Memory.read_filter_eq]
    split <;> rename_i hf <;> simp only [hf, Memory.read_nil] at hn
    · by_cases hx : x = a
      · simp [lastPending, hx]
      · rw [if_neg hx] at hn
        simp [lastPending, hx, ← hn]
    · by_cases hx : x = a
      · subst hx
        rw [if_pos rfl] at hn
        simp [lastPending, PendingStore.byteFor, hn]
      · rw [if_neg hx] at hn
        simp [lastPending, PendingStore.byteFor, hn, hx]

end Sys2Proof.Machine
end

