-- ==== Sys2Proof/Laws/PerInstr.lean ====
section
/-! SUPPORT. The per-instruction family `EncodeRow`: the encoded word of an instruction lies in its own row of the opcode map. -/

namespace Sys2Proof

/-- The row of the opcode map an instruction belongs to (30_encoding.md R67). -/
def Instr.row : Instr → OpcodeRow
  | .std _ _ _ => rowStd
  | .stdu _ _ _ => rowStdu
  | .stdux _ _ _ => rowStdux
  | .stdx _ _ _ => rowStdx

/-- The encoded word matches the instruction's row. -/
def Laws.EncodeRow.Statement (i : Instr) : Prop := i.row.matches (encode i) = true

/-- A register field leaves the bits outside it alone. -/
theorem putReg_and_mask (r : Reg) (lsb : Nat) (m : InsnWord) (h : m &&& (31#32 <<< lsb) = 0#32) : putReg r lsb &&& m = 0#32 := by
  have hr : (BitVec.ofFin r : BitVec 5).zeroExtend 32 = (BitVec.ofFin r : BitVec 5).zeroExtend 32 &&& 31#32 := by
    revert r; decide
  rw [putReg, hr, BitVec.shiftLeft_and_distrib, BitVec.and_assoc, BitVec.and_comm _ m, h, BitVec.and_zero]

/-- The displacement field leaves the bits outside it alone. -/
theorem putDisp_and_mask (ds : Int) (m : InsnWord) (h : m &&& 0xFFFC#32 = 0#32) : putDisp ds &&& m = 0#32 := by
  have hd : putDisp ds = (BitVec.ofInt 16 ds).zeroExtend 32 &&& 0xFFFC#32 :=
    BitVec.setWidth_and
  rw [hd, BitVec.and_assoc, BitVec.and_comm _ m, h, BitVec.and_zero]

theorem Laws.EncodeRow.std (rs ra : Reg) (ds : Int) : Laws.EncodeRow.Statement (.std rs ra ds) := by
  simp only [Laws.EncodeRow.Statement, Instr.row, OpcodeRow.matches, rowStd, encode, BitVec.and_or_distrib_right, beq_iff_eq]
  rw [putReg_and_mask rs 21 _ (by decide), putReg_and_mask ra 16 _ (by decide), putDisp_and_mask ds _ (by decide)]
  decide

theorem Laws.EncodeRow.stdu (rs ra : Reg) (ds : Int) : Laws.EncodeRow.Statement (.stdu rs ra ds) := by
  simp only [Laws.EncodeRow.Statement, Instr.row, OpcodeRow.matches, rowStdu, encode, BitVec.and_or_distrib_right, beq_iff_eq]
  rw [putReg_and_mask rs 21 _ (by decide), putReg_and_mask ra 16 _ (by decide), putDisp_and_mask ds _ (by decide)]
  decide

theorem Laws.EncodeRow.stdux (rs ra rb : Reg) : Laws.EncodeRow.Statement (.stdux rs ra rb) := by
  simp only [Laws.EncodeRow.Statement, Instr.row, OpcodeRow.matches, rowStdux, encode, BitVec.and_or_distrib_right, beq_iff_eq]
  rw [putReg_and_mask rs 21 _ (by decide), putReg_and_mask ra 16 _ (by decide), putReg_and_mask rb 11 _ (by decide)]
  decide

theorem Laws.EncodeRow.stdx (rs ra rb : Reg) : Laws.EncodeRow.Statement (.stdx rs ra rb) := by
  simp only [Laws.EncodeRow.Statement, Instr.row, OpcodeRow.matches, rowStdx, encode, BitVec.and_or_distrib_right, beq_iff_eq]
  rw [putReg_and_mask rs 21 _ (by decide), putReg_and_mask ra 16 _ (by decide), putReg_and_mask rb 11 _ (by decide)]
  decide

end Sys2Proof
end

