-- ==== Sys2Proof/Laws/Reservations.lean ====
section
/-! SUPPORT. Everything `ReservationsInvalidate` can do (20_memory.md R49). -/

namespace Sys2Proof.Machine

/-- A reservation whose granule holds byte EA never survives. -/
theorem Env.survives_must {e : Env} {n : Nat} {ea : Addr} {r : Reservation} (h : e.survives n ea r = true) :
    e.granule.covers r.granule ea.toNat = false := by
  cases hg : e.granule.covers r.granule ea.toNat with
  | false => rfl
  | true => simp [Env.survives, hg] at h

/-- A reservation no byte of the store touches always survives. -/
theorem Env.survives_untouched {e : Env} (n : Nat) {ea : Addr} {r : Reservation}
    (h : ∀ k < 8, e.granule.covers r.granule (ea.toNat + k) = false) : e.survives n ea r = true := by
  have h0 : e.granule.covers r.granule ea.toNat = false := by simpa using h 0 (by omega)
  have hall : offsets.any (fun k => e.granule.covers r.granule (ea.toNat + k)) = false := by
    simp only [List.any_eq_false]
    exact fun k hk => by simp [h k (mem_offsets.1 hk)]
  simp [Env.survives, h0, hall]

theorem covers_eq_false {u : Granule} {g a : Nat} :
    u.covers g a = false ↔ ¬ (g * u.align ≤ a ∧ a < g * u.align + u.size) := by
  simp [Granule.covers]

/-- The reservations left are some of those there were. -/
theorem State.reservationsInvalidate_sublist (s : State) (ea : Addr) : (s.reservationsInvalidate ea).resv.Sublist s.resv := by
  unfold State.reservationsInvalidate
  split
  · exact List.filter_sublist
  · exact List.Sublist.refl _

/-- The relation of 20_memory.md R49 holds. -/
theorem State.reservationsInvalidate_resvAfter (s : State) (ea : Addr) : ResvAfter s ea (s.reservationsInvalidate ea) := by
  unfold ResvAfter State.reservationsInvalidate
  cases ht : s.env.resvTracking
  · simp
  · cases hr : s.resv with
    | nil => simp [hr]
    | cons q qs =>
      simp only [if_true, Bool.true_and, List.isEmpty_cons, Bool.not_false]
      constructor
      · intro r h
        have h := List.mem_filter.1 h
        exact ⟨h.1, covers_eq_false.1 (Env.survives_must h.2)⟩
      · exact fun r hmem hk => List.mem_filter.2
          ⟨hmem, Env.survives_untouched _ fun k h8 => covers_eq_false.2 (hk k h8)⟩

end Sys2Proof.Machine
end

