-- ==== Sys2Proof/Laws/Store.lean ====
section
/-! SUPPORT. The checks of a store, what its effects leave, and what `exec` can answer. -/

namespace Sys2Proof.Machine

/-- Where the four checks of a store pass, as one Boolean (60_exceptions.md R105, checks 6 to 9). -/
def storeChecks (s : State) (ea : Addr) : Bool :=
  fitsSpace ea && !s.env.touchesText ea && s.env.admits ea && s.nextPcFits

theorem checkStore_of_pass {s : State} {ea : Addr} (t : State) (h : storeChecks s ea = true) : checkStore s ea t = .next t := by
  simp only [storeChecks, Bool.and_eq_true, Bool.not_eq_true'] at h
  obtain ⟨⟨⟨h1, h2⟩, h3⟩, h4⟩ := h
  simp [checkStore, h1, h2, h3, h4]

/-- `checkStore` answers the effects' state exactly when the checks pass. -/
theorem checkStore_next {s t u : State} {ea : Addr} (h : checkStore s ea t = .next u) : storeChecks s ea = true ∧ u = t := by
  unfold checkStore at h
  repeat' split at h
  all_goals simp_all [storeChecks]

/-- The reasons a store stops for. -/
theorem checkStore_stops (s : State) (ea : Addr) (t : State) :
    checkStore s ea t = .next t ∨ checkStore s ea t = .refused .addressWrap ∨ checkStore s ea t = .refused .storeToText ∨
      checkStore s ea t = .fault .memNotAdmitted ∨ checkStore s ea t = .refused .pcWrap := by
  unfold checkStore
  repeat' split
  all_goals simp

/-- The checks pass exactly where the claims' premise says so. -/
theorem storeChecks_iff (s : State) (ea : Addr) : storeChecks s ea = true ↔ CanStore s ea := by
  simp only [storeChecks, Bool.and_eq_true, Bool.not_eq_true', fitsSpace, State.nextPcFits, decide_eq_true_eq,
    Env.touchesText, Env.admits, List.any_eq_false, List.all_eq_true, mem_offsets, Env.inText, Env.inMap,
    Region.contains, List.any_eq_true]
  simp only [Config.spaceSize, Config.insnBytes]
  constructor
  · rintro ⟨⟨⟨h1, h2⟩, h3⟩, h4⟩
    refine ⟨by omega, fun k hk => ?_, fun k hk => ?_, by omega⟩
    · simpa using h2 k hk
    · obtain ⟨r, hr, hc⟩ := h3 k hk
      exact ⟨r, hr, by simpa using hc⟩
  · rintro ⟨h1, h2, h3, h4⟩
    refine ⟨⟨⟨by omega, fun k hk => ?_⟩, fun k hk => ?_⟩, by omega⟩
    · simp [h2 k hk]
    · obtain ⟨r, hr, hc⟩ := h3 k hk
      exact ⟨r, hr, by simpa using hc⟩

/-- What effects 2 and 3 leave outside the executing agent's registers. -/
theorem State.stored_of_memWrite (s : State) (ea : Addr) (v : Word) :
    Stored s ea v ((s.reservationsInvalidate ea).memWrite ea v) where
  bytes k hk := by
    have h := (s.reservationsInvalidate ea).memWrite_seen ea v hk
    simpa [State.readByte, byteOf] using h
  frame ag a h := by rw [State.memWrite_seen_other _ _ _ _ h]; simp
  waits hs := by
    rw [State.memWrite_of_not_alone _ _ _ (by simpa using hs)]
    simp [storeCells, offsets, byteOf, List.range_succ]
  others ag a h hs := by
    rw [State.memWrite_seen_by_others _ _ _ _ (by simpa using h) (by simpa using hs)]
    simp
  lone h := by
    have hp := State.pending_of_alone h
    rw [State.memWrite_of_alone _ _ _ (by simpa using h)]
    exact ⟨by simpa using hp, fun k hk => read_writeAll_storeCells _ _ _ hk,
      fun a ha => by simpa using read_writeAll_storeCells_other _ _ _ ha⟩
  resv := by
    have h := s.reservationsInvalidate_resvAfter ea
    simpa only [ResvAfter, State.memWrite_resv] using h
  agent := by simp
  parked := by simp
  turns := by simp
  env := by simp

/-- What the effects of a store without update leave: the registers as they were, the pc four further. -/
theorem State.storeEffects_ctx (s : State) (ea : Addr) (v : Word) :
    (s.storeEffects ea v).ctx = { s.ctx with pc := s.ctx.pc + 4#32 } := by
  simp [State.storeEffects, State.advancePc]

/-- What the effects of an update form leave: RA holds the zero-extended EA, the pc four further. -/
theorem State.storeUpdateEffects_ctx (s : State) (ea : Addr) (v : Word) (ra : Reg) :
    (s.storeUpdateEffects ea v ra).ctx = { s.ctx with gpr := s.ctx.gpr.set ra (zext64 ea), pc := s.ctx.pc + 4#32 } := by
  simp [State.storeUpdateEffects, State.advancePc, State.writeGpr]

/-- The registers do not matter for `Stored`. -/
theorem Stored.congr {s t u : State} {ea : Addr} {v : Word} (h : Stored s ea v t) (hm : u.mem = t.mem) (hp : u.pending = t.pending)
    (hr : u.resv = t.resv) (ha : u.agent = t.agent) (hk : u.parked = t.parked) (ht : u.turns = t.turns) (he : u.env = t.env) :
    Stored s ea v u where
  bytes k hk := by simpa [State.readByte, State.seenBy, hm, hp, ha] using h.bytes k hk
  frame ag a h' := by simpa [State.seenBy, hm, hp] using h.frame ag a h'
  waits hs := by simpa only [hm, hp] using h.waits hs
  others ag a h' hs := by simpa [State.seenBy, hm, hp] using h.others ag a h' hs
  lone hs := by simpa [hm, hp] using h.lone hs
  resv := by simpa only [ResvAfter, hr] using h.resv
  agent := ha.trans h.agent
  parked := hk.trans h.parked
  turns := ht.trans h.turns
  env := he.trans h.env

theorem State.stored_of_storeEffects (s : State) (ea : Addr) (v : Word) : Stored s ea v (s.storeEffects ea v) :=
  (s.stored_of_memWrite ea v).congr rfl rfl rfl rfl rfl rfl rfl

theorem State.stored_of_storeUpdateEffects (s : State) (ea : Addr) (v : Word) (ra : Reg) :
    Stored s ea v (s.storeUpdateEffects ea v ra) :=
  (s.stored_of_memWrite ea v).congr rfl rfl rfl rfl rfl rfl rfl

/-- The state after all effects of an instruction. -/
def State.effectsOf (s : State) : Instr → State
  | .std rs ra ds => s.storeEffects (s.eaStd ra ds) (s.readGpr rs)
  | .stdu rs ra ds => s.storeUpdateEffects (s.eaStdu ra ds) (s.readGpr rs) ra
  | .stdux rs ra rb => s.storeUpdateEffects (s.eaStdux ra rb) (s.readGpr rs) ra
  | .stdx rs ra rb => s.storeEffects (s.eaStdx ra rb) (s.readGpr rs)

/-- `exec`, all four instructions in one shape: the form's check, then the store's checks, then the effects. -/
theorem exec_eq (i : Instr) (s : State) :
    exec i s = if s.refusesInstr i then .refused .invalidFormRA0 else checkStore s (s.eaOf i) (s.effectsOf i) := by
  cases i <;> simp only [exec, execStd, execStdu, execStdux, execStdx, State.refusesInstr, State.eaOf, State.effectsOf] <;> rfl

/-- Everything `exec` can do when it answers a next state. -/
theorem exec_next {i : Instr} {s t : State} (h : exec i s = .next t) :
    s.refusesInstr i = false ∧ storeChecks s (s.eaOf i) = true ∧ t = s.effectsOf i := by
  rw [exec_eq] at h
  split at h
  · cases h
  · rename_i hf
    exact ⟨by simpa using hf, checkStore_next h⟩

theorem exec_of_pass {i : Instr} {s : State} (hf : s.refusesInstr i = false) (hc : storeChecks s (s.eaOf i) = true) :
    exec i s = .next (s.effectsOf i) := by
  rw [exec_eq, hf]
  exact checkStore_of_pass _ hc

/-- Outside its own registers, every completed instruction is a store of `x[RS]` at its effective address. -/
theorem stored_of_exec {i : Instr} {s t : State} (h : exec i s = .next t) : Stored s (s.eaOf i) (s.readGpr (storedReg i)) t := by
  obtain ⟨-, -, rfl⟩ := exec_next h
  cases i
  · exact s.stored_of_storeEffects _ _
  · exact s.stored_of_storeUpdateEffects _ _ _
  · exact s.stored_of_storeUpdateEffects _ _ _
  · exact s.stored_of_storeEffects _ _

/-- Every completed instruction advances the pc by 4, without wrapping. -/
theorem pc_of_exec {i : Instr} {s t : State} (h : exec i s = .next t) :
    t.ctx.pc = s.ctx.pc + 4#32 ∧ s.ctx.pc.toNat + 4 < 4294967296 := by
  obtain ⟨-, hc, rfl⟩ := exec_next h
  refine ⟨?_, ?_⟩
  · cases i <;> simp only [State.effectsOf, State.storeEffects_ctx, State.storeUpdateEffects_ctx]
  · have := ((storeChecks_iff s _).1 hc).pcFits
    omega

end Sys2Proof.Machine
end

