-- ==== Sys2Proof/Laws/Step.lean ====
section
/-! SUPPORT. What a step of the machine can do. -/

namespace Sys2Proof.Machine

theorem State.turn_nil {s : State} (h : s.turns = []) : s.turn = .run s.agent := by simp [State.turn, h]

theorem State.turn_cons {s : State} {t : Turn} {ts : List Turn} (h : s.turns = t :: ts) : s.turn = t := by simp [State.turn, h]

theorem agentStep_of_fetch {s : State} {i : Instr} (h : s.fetchInstr = .ok i) : agentStep s = exec i s := by simp [agentStep, h]

/-- Everything an agent's step can do when it answers a next state: it runs the instruction it fetched. -/
theorem agentStep_next {s t : State} (h : agentStep s = .next t) : ∃ i, s.fetchInstr = .ok i ∧ exec i s = .next t := by
  unfold agentStep at h
  split at h
  · cases h
  · exact ⟨_, ‹_›, h⟩

/-! When an agent can take a step, and the outcome once none can. -/

theorem Env.running_iff {e : Env} {c : Context} : e.running c = true ↔ c.stop = none ∧ e.endPc ≠ some c.pc := by
  simp [Env.running, Option.isNone_iff_eq_none]

theorem Env.running_eq_false {e : Env} {c : Context} : e.running c = false ↔ c.stop ≠ none ∨ e.endPc = some c.pc := by
  rw [← Bool.not_eq_true, Env.running_iff]
  tauto

theorem State.mem_contexts {s : State} {c : Context} : c ∈ s.contexts ↔ c = s.ctx ∨ ∃ p ∈ s.parked, p.ctx = c := by
  simp [State.contexts]

theorem State.someRunning_of_parked {s : State} {p : Parked} (hp : p ∈ s.parked) (h : s.env.running p.ctx = true) : s.someRunning = true :=
  List.any_eq_true.2 ⟨p.ctx, State.mem_contexts.2 (.inr ⟨p, hp, rfl⟩), h⟩

/-- Where an agent's run ends while a parked one can go on, the machine goes on. -/
theorem State.endRun_of_parked {s : State} {p : Parked} (why : Stop) (hp : p ∈ s.parked) (h : s.env.running p.ctx = true) :
    s.endRun why = .next { s with ctx := { s.ctx with stop := some why } } :=
  if_pos (State.someRunning_of_parked (s := { s with ctx := { s.ctx with stop := some why } }) hp h)

/-- No agent runs where none can. -/
theorem State.runner_eq_none {s : State} (ag : Nat) (h : ∀ c ∈ s.contexts, s.env.running c = false) : s.runner ag = none := by
  have hctx := h s.ctx (State.mem_contexts.2 (.inl rfl))
  have hp : ∀ p ∈ s.parked, s.env.running p.ctx = false := fun p hp => h _ (State.mem_contexts.2 (.inr ⟨p, hp, rfl⟩))
  have hf : s.parked.find? (fun p => s.env.running p.ctx) = none := by simpa using hp
  have hc : (s.contextOf ag).any s.env.running = false := by
    unfold State.contextOf
    split
    · simpa using hctx
    · cases hq : s.parked.find? (fun p => p.id == ag) with
      | none => rfl
      | some p => simpa using hp p (List.mem_of_find?_eq_some hq)
  simp [State.runner, hc, hctx, hf]

theorem State.verdict_of_fault {s : State} {c : Context} {f : Fault} (hc : c ∈ s.contexts) (hs : c.stop = some (.fault f)) :
    s.verdict = .fault .memNotAdmitted := by
  unfold State.verdict
  cases hf : s.contexts.findSome? Context.endFault with
  | some f => cases f; rfl
  | none =>
    have := List.findSome?_eq_none_iff.1 hf c hc
    simp [Context.endFault, hs] at this

theorem State.endFault_eq_none {s : State} (h : ∀ c ∈ s.contexts, ∀ f, c.stop ≠ some (.fault f)) : s.contexts.findSome? Context.endFault = none :=
  List.findSome?_eq_none_iff.2 fun c hc => by
    have := h c hc
    unfold Context.endFault
    split <;> simp_all

/-- Without a fault the first refusal found, the executing agent's first, is the verdict. -/
theorem State.verdict_of_refusal {s : State} {r : Refusal} (h : ∀ c ∈ s.contexts, ∀ f, c.stop ≠ some (.fault f))
    (hr : s.contexts.findSome? Context.endRefusal = some r) : s.verdict = .refused r := by
  simp [State.verdict, State.endFault_eq_none h, hr]

theorem State.verdict_of_none_stopped {s : State} (h : ∀ c ∈ s.contexts, c.stop = none) : s.verdict = .refused .runEnded := by
  have hr : s.contexts.findSome? Context.endRefusal = none := List.findSome?_eq_none_iff.2 fun c hc => by simp [Context.endRefusal, h c hc]
  have hf : s.contexts.findSome? Context.endFault = none := State.endFault_eq_none fun c hc f => by simp [h c hc]
  simp [State.verdict, hf, hr]

/-- The verdict is never a next state. -/
theorem State.verdict_stops (s : State) : (∃ f, s.verdict = .fault f) ∨ ∃ r, s.verdict = .refused r := by
  unfold State.verdict
  split
  · exact .inl ⟨_, rfl⟩
  · split <;> exact .inr ⟨_, rfl⟩

/-- What the end of an agent's run answers. -/
theorem State.endRun_cases (s : State) (why : Stop) :
    (({ s with ctx := { s.ctx with stop := some why } } : State).someRunning = true ∧
        s.endRun why = .next { s with ctx := { s.ctx with stop := some why } }) ∨
      (({ s with ctx := { s.ctx with stop := some why } } : State).someRunning = false ∧
        s.endRun why = ({ s with ctx := { s.ctx with stop := some why } } : State).verdict) := by
  unfold State.endRun
  cases h : ({ s with ctx := { s.ctx with stop := some why } } : State).someRunning <;> simp [h]

/-- With no agent but the executing one, an agent's outcome is the machine's. -/
theorem State.afterAgent_of_no_parked {s : State} (h : s.parked = []) (o : Host.Outcome State Fault Refusal) : s.afterAgent o = o := by
  cases o <;> simp [State.afterAgent, State.endRun, State.someRunning, State.contexts, Env.running, State.verdict, Context.endFault, Context.endRefusal, h]

/-- An executing agent that can take a step takes it when no turn is listed. -/
theorem step_of_no_turn {s : State} (h : s.turns = []) (hr : s.env.running s.ctx = true) : step s = s.afterAgent (agentStep s) := by
  simp [step, State.turn_nil h, State.popTurn_of_no_turn _ h, State.runner, State.contextOf, hr]

/-- Where an agent that runs is a parked or the executing one that can take a step. -/
theorem State.runner_some {s : State} {ag r : Nat} (h : s.runner ag = some r) :
    (∃ c, s.contextOf r = some c ∧ s.env.running c = true) ∨ ∃ p ∈ s.parked, p.id = r ∧ s.env.running p.ctx = true := by
  unfold State.runner at h
  split at h
  · rename_i hc
    obtain rfl : ag = r := by simpa using h
    cases hx : s.contextOf ag with
    | none => simp [hx] at hc
    | some c => exact .inl ⟨c, rfl, by simpa [hx] using hc⟩
  · split at h
    · rename_i hc
      cases h
      exact .inl ⟨s.ctx, by simp [State.contextOf], hc⟩
    · obtain ⟨p, hp, rfl⟩ := Option.map_eq_some_iff.1 h
      exact .inr ⟨p, List.mem_of_find?_eq_some hp, rfl, by simpa using List.find?_some hp⟩

/-- Everything a step can do when it answers a next state: bytes settle; the agent whose turn it is runs an instruction; or that agent's run ends and others go on. -/
theorem step_next {s t : State} (h : step s = .next t) :
    (∃ ag a, s.turn = .settle ag a ∧ t = s.popTurn.settle ag a) ∨
      (∃ ag r i, s.turn = .run ag ∧ s.runner ag = some r ∧ (s.popTurn.switchTo r).fetchInstr = .ok i ∧
        exec i (s.popTurn.switchTo r) = .next t) ∨
      ∃ ag r why, s.turn = .run ag ∧ s.runner ag = some r ∧
        (agentStep (s.popTurn.switchTo r) = (match why with | .fault f => .fault f | .refuse q => .refused q)) ∧
        t = { s.popTurn.switchTo r with ctx := { (s.popTurn.switchTo r).ctx with stop := some why } } ∧ t.someRunning = true := by
  unfold step at h
  split at h
  · rename_i ag ht
    rw [State.popTurn_runner] at h
    split at h
    · rename_i r hr
      have hend : ∀ why, (s.popTurn.switchTo r).endRun why = .next t →
          t = { s.popTurn.switchTo r with ctx := { (s.popTurn.switchTo r).ctx with stop := some why } } ∧ t.someRunning = true := by
        intro why hw
        rcases (s.popTurn.switchTo r).endRun_cases why with ⟨hs, he⟩ | ⟨-, he⟩
        · rw [he] at hw
          cases hw
          exact ⟨rfl, hs⟩
        · rw [he] at hw
          rcases State.verdict_stops { s.popTurn.switchTo r with ctx := { (s.popTurn.switchTo r).ctx with stop := some why } } with
            ⟨f, hv⟩ | ⟨q, hv⟩ <;> rw [hv] at hw <;> cases hw
      cases ho : agentStep (s.popTurn.switchTo r) with
      | next u =>
        rw [ho] at h
        cases h
        obtain ⟨i, hi, he⟩ := agentStep_next ho
        exact .inr (.inl ⟨ag, r, i, ht, hr, hi, he⟩)
      | fault f =>
        rw [ho] at h
        exact .inr (.inr ⟨ag, r, .fault f, ht, hr, ho, hend _ h⟩)
      | refused q =>
        rw [ho] at h
        exact .inr (.inr ⟨ag, r, .refuse q, ht, hr, ho, hend _ h⟩)
    · rcases s.verdict_stops with ⟨f, hv⟩ | ⟨q, hv⟩ <;> rw [hv] at h <;> cases h
  · rename_i ag a ht
    exact .inl ⟨ag, a, ht, by simpa using h.symm⟩

/-- An instruction is fetched from an aligned pc. -/
theorem State.fetchInstr_ok {s : State} {i : Instr} (h : s.fetchInstr = .ok i) :
    s.ctx.pc.toNat % 4 = 0 ∧ ∃ w, s.env.fetchWord s.ctx.pc.toNat = some w ∧ decode w = .instr i := by
  unfold State.fetchInstr at h
  split at h
  · cases h
  · rename_i h2
    split at h
    · cases h
    · rename_i w hw
      split at h
      · rename_i j hj
        cases h
        exact ⟨by simpa [Config.insnBytes] using h2, w, hw, hj⟩
      · cases h
      · cases h

/-- What taking another agent's context out of the parked ones leaves. -/
theorem swapParked_some {ag : Nat} {me : Parked} {ps qs : List Parked} {c : Context} (h : swapParked ag me ps = some (c, qs)) :
    ∃ xs ys, ps = xs ++ ⟨ag, c⟩ :: ys ∧ qs = xs ++ me :: ys ∧ ∀ p ∈ xs, p.id ≠ ag := by
  induction ps generalizing qs with
  | nil => simp [swapParked] at h
  | cons p ps ih =>
    unfold swapParked at h
    split at h
    · rename_i hp
      subst hp
      simp only [Option.some.injEq, Prod.mk.injEq] at h
      obtain ⟨rfl, rfl⟩ := h
      exact ⟨[], ps, rfl, rfl, by simp⟩
    · rename_i hp
      split at h
      · rename_i c' qs' hq
        simp only [Option.some.injEq, Prod.mk.injEq] at h
        obtain ⟨rfl, rfl⟩ := h
        obtain ⟨xs, ys, rfl, rfl, hx⟩ := ih hq
        refine ⟨p :: xs, ys, rfl, rfl, fun q hmem => ?_⟩
        rcases List.mem_cons.1 hmem with rfl | hmem
        · exact hp
        · exact hx q hmem
      · cases h

/-- Everything `switchTo` can do: nothing, or the executing agent and a parked one change places. -/
theorem State.switchTo_cases (s : State) (ag : Nat) :
    s.switchTo ag = s ∨ ∃ c xs ys, ag ≠ s.agent ∧ s.parked = xs ++ ⟨ag, c⟩ :: ys ∧ (∀ p ∈ xs, p.id ≠ ag) ∧
      s.switchTo ag = { s with agent := ag, ctx := c, parked := xs ++ ⟨s.agent, s.ctx⟩ :: ys } := by
  unfold State.switchTo
  split
  · exact .inl rfl
  · rename_i hne
    split
    · rename_i c qs hq
      obtain ⟨xs, ys, hps, rfl, hx⟩ := swapParked_some hq
      exact .inr ⟨c, xs, ys, hne, hps, hx, rfl⟩
    · exact .inl rfl

theorem find_parked_eq_none {ps : List Parked} {ag : Nat} (h : ∀ p ∈ ps, p.id ≠ ag) : ps.find? (fun p => p.id == ag) = none := by
  simpa using h

/-- Which agent executes does not matter for what context each agent has. -/
theorem State.switchTo_contextOf {s : State} (h : (s.agent :: s.parked.map Parked.id).Nodup) (ag ag' : Nat) :
    (s.switchTo ag).contextOf ag' = s.contextOf ag' := by
  rcases s.switchTo_cases ag with e | ⟨c, xs, ys, hne, hp, hx, e⟩
  · rw [e]
  · rw [e]
    simp only [hp, List.map_append, List.map_cons, List.nodup_cons, List.mem_append, List.mem_map, List.mem_cons] at h
    unfold State.contextOf
    simp only [hp, List.find?_append, List.find?_cons]
    by_cases h1 : ag' = ag
    · subst h1
      simp [hne, find_parked_eq_none hx]
    · by_cases h2 : ag' = s.agent
      · subst h2
        have hs : ∀ p ∈ xs, p.id ≠ s.agent := fun p hp' he => h.1 (.inl ⟨p, hp', he⟩)
        simp [h1, find_parked_eq_none hs]
      · have e1 : (s.agent == ag') = false := by simpa using Ne.symm h2
        have e2 : (ag == ag') = false := by simpa using Ne.symm h1
        simp [h1, h2, e1, e2]

end Sys2Proof.Machine
end

