-- ==== Sys2Proof/Tests/Slice0.lean ====
section
/-! SUPPORT. Tests. Expected results are those of 95_test_vectors.md (V<n>) or worked from the rule named; the witnesses show that the premises of each statement can be met. -/

namespace Sys2Proof.Tests

open Sys2Proof.Machine

/-! Helpers: a small state, one step, and what is looked at. -/

/-- The reset state with some registers set and one word placed where the next step fetches. -/
def start (regs : List (Reg × Word)) (w : Nat) : State :=
  (regs.foldl (fun s p => s.writeGpr p.1 p.2) State.reset).withFetchWord 32 w

/-- The step answers a next state that passes the check. -/
def nextHas (s : State) (check : State → Bool) : Bool :=
  match step s with
  | .next t => check t
  | .fault _ => false
  | .refused _ => false

/-- The step stops with this refusal. -/
def refusedBy (s : State) (r : Refusal) : Bool :=
  match step s with
  | .next _ => false
  | .fault _ => false
  | .refused r' => r' == r

/-- The step stops with a fault. -/
def faults (s : State) : Bool :=
  match step s with
  | .next _ => false
  | .fault _ => true
  | .refused _ => false

/-- The eight bytes from `a`, as one number; none where a byte has no value. -/
def doubleword (s : State) (a : Nat) : Option Nat :=
  offsets.foldl (fun acc k =>
    match acc, s.readByte (a + k) with
    | some n, some b => some (n * 256 + b.toNat)
    | _, _ => none) (some 0)

/-! WellFormed: one ill-formed term for each check. -/

theorem test_wf_refuses_unscaled_displacement : (Instr.std 3 1 2).wf = false := by decide
theorem test_wf_refuses_unscaled_displacement_update : (Instr.stdu 3 1 6).wf = false := by decide
theorem test_wf_refuses_displacement_too_low : (Instr.std 3 1 (-32772)).wf = false := by decide
theorem test_wf_refuses_displacement_too_high : (Instr.stdu 3 1 32768).wf = false := by decide
theorem test_wf_admits_ends : (Instr.std 3 1 (-32768)).wf = true ∧ (Instr.stdu 3 1 32764).wf = true := by decide

/-! Decoding: words written out from the encodings of 30_encoding.md R67 (`111110 sssss aaaaa dddddddddddddd 00` and so on; listed in 95_test_vectors.md 2.1). -/

theorem test_decode_std : decode 0b11111000011000010000000000001000#32 = .instr (.std 3 1 8) := by decide
theorem test_decode_std_ends : decode 0xF8617FFC#32 = .instr (.std 3 1 32764) ∧ decode 0xF8618000#32 = .instr (.std 3 1 (-32768)) := by decide
theorem test_decode_stdu : decode 0b11111000001000011111111110010001#32 = .instr (.stdu 1 1 (-112)) := by decide
theorem test_decode_stdux : decode 0b01111100110001110100000101101010#32 = .instr (.stdux 6 7 8) := by decide
theorem test_decode_stdx : decode 0b01111100101000000010000100101010#32 = .instr (.stdx 5 0 4) := by decide
theorem test_decode_off_the_map :
    decode 0xF8000002#32 = .undecoded ∧ decode 0xF8000003#32 = .undecoded ∧ decode 0x7C00012B#32 = .undecoded ∧
      decode 0x7C00016B#32 = .undecoded ∧ decode 0x7C00012E#32 = .undecoded ∧ decode 0xE8610008#32 = .undecoded ∧
      decode 0#32 = .undecoded ∧ decode 0xFFFFFFFF#32 = .undecoded := by decide
theorem test_decode_too_few_bytes : decodeBytes [0xF8#8, 0x61#8, 0x00#8] = .truncated := by decide
theorem test_decode_table_word : decodeTableWord 32 0x7FFFF92A = some (.stdx 31 31 31) := by decide
theorem test_encode : encode (.stdu 1 1 (-112)) = 0xF821FF91#32 ∧ encode (.stdx 5 0 4) = 0x7CA0212A#32 ∧
    encode (.stdux 6 7 8) = 0x7CC7416A#32 ∧ encode (.std 31 1 40) = 0xFBE10028#32 := by decide
theorem test_assemble_checks_displacement : assemble (.std 3 1 2) = none ∧ assemble (.std 3 1 8) = some 0xF8610008#32 := by decide
theorem test_assembler_text : assemblerText (.stdu 1 1 (-112)) = "stdu r1, -112(r1)" ∧ assemblerText (.stdx 5 0 4) = "stdx r5, 0, r4" := by decide

/-! One step of each instruction. -/

/-- V1: big-endian bytes, no register changed, pc + 4. -/
theorem test_std_stores_big_endian :
    nextHas (start [(1, 0x70001000#64), (3, 0x0123456789ABCDEF#64)] 0xF8610008) (fun t =>
      doubleword t 0x70001008 == some 0x0123456789ABCDEF && t.readByte 0x70001008 == some 0x01#8 && t.ctx.pc == 0x00010004#32 &&
        t.readGpr 1 == 0x70001000#64) = true := by decide

/-- V5: RA field 0 is the literal zero whatever r0 holds; a negative displacement addresses the top of the space. -/
theorem test_std_base_zero :
    nextHas (start [(0, 0x1234#64), (4, 0x8000000000000001#64)] 0xF880FFF8) (fun t => doubleword t 0xFFFFFFF8 == some 0x8000000000000001) = true := by decide

/-- V20: the old base is stored, then RA holds EA. -/
theorem test_stdu_stores_old_base :
    nextHas (start [(1, 0x700FFF00#64)] 0xF821FF91) (fun t => doubleword t 0x700FFE90 == some 0x700FFF00 && t.readGpr 1 == 0x700FFE90#64) = true := by decide

/-- V23: RA gets the truncated EA, zero-extended. -/
theorem test_stdu_zero_extends :
    nextHas (start [(1, 0xFFFFFFFF00000010#64), (3, 0xAA#64)] 0xF861FFE1) (fun t => doubleword t 0xFFFFFFF0 == some 0xAA && t.readGpr 1 == 0xFFFFFFF0#64) = true := by decide

/-- V32: a 32-bit negative index wraps in 32 bits. -/
theorem test_stdux_index_wraps :
    nextHas (start [(6, 0xDEADBEEFCAFEF00D#64), (7, 0x40000010#64), (8, 0xFFFFFFF8#64)] 0x7CC7416A) (fun t =>
      doubleword t 0x40000008 == some 0xDEADBEEFCAFEF00D && t.readGpr 7 == 0x40000008#64 && t.readGpr 8 == 0xFFFFFFF8#64) = true := by decide

/-- V35: RS is the index register. -/
theorem test_stdux_stores_index :
    nextHas (start [(9, 0x50000000#64), (10, 0x28#64)] 0x7D49516A) (fun t => doubleword t 0x50000028 == some 0x28 && t.readGpr 9 == 0x50000028#64) = true := by decide

/-- V42: RA field 0 is zero, RB = 0 reads r0. -/
theorem test_stdx_index_is_r0 :
    nextHas (start [(0, 0x80002000#64), (5, 0x1122334455667788#64)] 0x7CA0012A) (fun t => doubleword t 0x80002000 == some 0x1122334455667788) = true := by decide

/-- V45: all fields one register, EA not a multiple of 4. -/
theorem test_stdx_all_fields_equal :
    nextHas (start [(7, 0x30000003#64)] 0x7CE7392A) (fun t => doubleword t 0x60000006 == some 0x30000003 && t.readGpr 7 == 0x30000003#64) = true := by decide

/-! Stops (V13, V25, V26, V50 to V53) and the end of a run. -/

theorem test_store_past_the_top : refusedBy (start [(1, 0xFFFFFFF9#64)] 0xF8610000) .addressWrap = true := by decide
theorem test_invalid_form_refused : refusedBy (start [(0, 0x70001000#64)] 0xF8600009) .invalidFormRA0 = true := by decide

/-- V26 under `INVALID_FORM_POLICY = snapshot`. -/
theorem test_invalid_form_under_snapshot :
    nextHas (let s := start [(0, 0x70001000#64), (3, 0xAB#64)] 0xF8600009
             { s with env := { s.env with invalidForm := .snapshot } })
      (fun t => doubleword t 0x70001008 == some 0xAB && t.readGpr 0 == 0x70001008#64) = true := by decide

/-- V50: the last byte is outside `MEM_MAP`. -/
theorem test_store_outside_map :
    faults (let s := start [(1, 0x70001000#64)] 0xF8610008
            { s with env := { s.env with memMap := [⟨0x70001000, 15⟩] } }) = true := by decide

/-- V51: a byte of the store is in `TEXT`. -/
theorem test_store_to_text :
    refusedBy (let s := start [(1, 0x70001000#64)] 0xF8610008
               { s with env := { s.env with text := Memory.write s.env.text 0x7000100C 0x00#8 } }) .storeToText = true := by decide

/-- V52, V53. -/
theorem test_pc_stops :
    refusedBy { start [] 0xF8610008 with ctx := { State.reset.ctx with pc := 0x00010002#32 } } .pcMisaligned = true ∧
      refusedBy (({ State.reset with ctx := { State.reset.ctx with pc := 0xFFFFFFFC#32 } } : State).withFetchWord 32 0xF8610008) .pcWrap = true := by decide

theorem test_no_text_undecoded_ended :
    refusedBy State.reset .fetchNotAdmitted = true ∧ refusedBy (start [] 0xFFFFFFFF) .undecodedWord = true ∧
      refusedBy { State.reset with env := { State.reset.env with endPc := some 0x00010000#32 } } .runEnded = true := by decide

/-! Reservations (V54, V55) and several agents. -/

/-- V1's store with tracking on, granules of 8 bytes. -/
def tracked (base : Word) (w : Nat) (resv : List Reservation) : State :=
  let s := start [(1, base), (3, 0x0123456789ABCDEF#64)] w
  { s with resv := resv, env := { s.env with resvTracking := true } }

/-- V54: the granule holding byte EA goes, an untouched one stays. -/
theorem test_reservation_lost_and_kept :
    nextHas (tracked 0x70001000#64 0xF8610008 [⟨2, 0x70001008 / 8⟩, ⟨3, 0x70001010 / 8⟩])
      (fun t => t.resv == [⟨3, 0x70001010 / 8⟩]) = true := by decide

/-- V55: the granule touched by later bytes alone goes or stays by the draw. -/
theorem test_reservation_drawn (s : State) (h : s.env.granule = ⟨8, 8⟩) (hd : s.draws = 0) :
    s.env.survives s.draws 0x70001005#32 ⟨3, 0x70001008 / 8⟩ = !Config.resvDraw 0 3 (0x70001008 / 8) ∧
      s.env.survives s.draws 0x70001005#32 ⟨2, 0x70001000 / 8⟩ = false := by
  simp [Env.survives, Granule.covers, h, hd, offsets]

/-- Log 14: 4 bytes of every 16 are a granule; a store after them touches none. -/
theorem test_granule_size_and_alignment :
    (⟨4, 16⟩ : Granule).covers 2 32 = true ∧ (⟨4, 16⟩ : Granule).covers 2 35 = true ∧ (⟨4, 16⟩ : Granule).covers 2 36 = false ∧
      (⟨4, 16⟩ : Granule).covers 2 31 = false := by decide

/-- Two agents: agent 1, parked at the same instruction with its own registers. -/
def twoAgents (turns : List Turn) : State :=
  let s := start [(1, 0x70001000#64), (3, 0x11#64)] 0xF8610008
  { s with parked := [⟨1, (s.writeGpr 3 0x22#64).ctx⟩], turns := turns }

/-- The named agent runs with its own registers; memory waits for a settle turn, its own view does not (R47, R52, R112). -/
theorem test_turn_runs_named_agent :
    nextHas (twoAgents [.run 1]) (fun t =>
      t.agent == 1 && t.mem == [] && doubleword t 0x70001008 == some 0x22 && t.seenBy 0 0x7000100F == none &&
        (t.settle 1 0x7000100F).seenBy 0 0x7000100F == some 0x22#8 &&
        (t.contextOf 0).map Context.pc == some 0x00010000#32 && t.ctx.pc == 0x00010004#32) = true := by decide

/-- R107: a fault ends the run of the agent it happens in; the other agent goes on. R102: once none can, the outcome is the fault, whoever is at `END_PC`. -/
theorem test_fault_ends_one_run :
    nextHas (let s := twoAgents [.run 1]
             { s with env := { s.env with memMap := [⟨0x70001008, 8⟩] }
                      parked := [⟨1, (s.writeGpr 1 0#64).ctx⟩] }) (fun t =>
      t.ctx.stop == some (.fault .memNotAdmitted) && t.ctx.pc == 0x00010000#32 && t.mem == [] &&
        nextHas t (fun u => u.agent == 0 && doubleword u 0x70001008 == some 0x11 && u.ctx.pc == 0x00010004#32 &&
          faults { u with env := { u.env with endPc := some 0x00010004#32 } })) = true := by decide

/-- R47, R52 (D11, D12): what a settle turn does with two waiting stores of one agent, under each value of `STORE_ATOMICITY` and `MEMORY_MODEL`. -/
def sWaiting (sa : StoreAtomicity) (mm : MemoryModel) (ag a : Nat) : State :=
  { twoAgents [.settle ag a] with
    pending := [⟨0, [(5, 0x01#8), (6, 0x02#8)]⟩, ⟨1, [(6, 0x03#8)]⟩, ⟨0, [(6, 0x04#8), (7, 0x05#8)]⟩]
    env := { State.reset.env with storeAtomicity := sa, memoryModel := mm } }

theorem test_settle_bytes_any_order :
    nextHas (sWaiting .bytes .anyOrder 0 7) (fun t => t.mem == [(7, 0x05#8)] && t.pending.getLast? == some ⟨0, [(6, 0x04#8)]⟩) = true ∧
      nextHas (sWaiting .whole .anyOrder 0 5) (fun t => t.mem == [(5, 0x01#8), (6, 0x02#8)] && t.pending.length == 2) = true := by decide

/-- Program order, and a store that shares an address with an older one, wait. -/
theorem test_settle_waits :
    nextHas (sWaiting .bytes .programOrder 0 7) (fun t => t.mem == [] && t.pending.length == 3) = true ∧
      nextHas (sWaiting .whole .anyOrder 0 7) (fun t => t.mem == [] && t.pending.length == 3) = true ∧
      nextHas (sWaiting .bytes .programOrder 1 6) (fun t => t.mem == [(6, 0x03#8)] && t.pending.length == 2) = true := by decide

/-! Witnesses: the premises of each statement can be met. -/

/-- V1's state. -/
def sStd : State := start [(1, 0x70001000#64), (3, 0x0123456789ABCDEF#64)] 0xF8610008

/-- V1's state under `INVALID_FORM_POLICY = snapshot`. -/
def sSnapshot : State := { sStd with env := { sStd.env with invalidForm := .snapshot } }

theorem canStore_sStd (ea : Addr) (h : storeChecks sStd ea = true) : CanStore sStd ea := (storeChecks_iff _ _).1 h

/-- V1's state with a second agent that runs too. -/
def sTwo : State := twoAgents []

/-- The same, where no store is admitted. -/
def sTwoFaults : State := { sTwo with env := { sTwo.env with memMap := [] } }

/-- `exec` of the instruction V1's word stands for stops with a fault, with a refusal. -/
def execFaults (s : State) : Bool :=
  match exec (.std 3 1 8) s with
  | .next _ => false
  | .fault _ => true
  | .refused _ => false

def execRefused (s : State) : Bool :=
  match exec (.std 3 1 8) s with
  | .next _ => false
  | .fault _ => false
  | .refused _ => true

/-- With one agent; with another that runs, where `exec` answers a next state, a fault, a refusal. -/
theorem witness_StepRunsDecodedInstruction :
    (sStd.parked = [] ∧ sStd.turns = [] ∧ sStd.ctx.stop = none ∧ sStd.env.endPc ≠ some sStd.ctx.pc ∧ sStd.ctx.pc.toNat % 4 = 0 ∧
      Memory.read sStd.env.text sStd.ctx.pc.toNat = some 0xF8#8 ∧ Memory.read sStd.env.text (sStd.ctx.pc.toNat + 1) = some 0x61#8 ∧
      Memory.read sStd.env.text (sStd.ctx.pc.toNat + 2) = some 0x00#8 ∧ Memory.read sStd.env.text (sStd.ctx.pc.toNat + 3) = some 0x08#8 ∧
      decode (0xF8#8 ++ 0x61#8 ++ 0x00#8 ++ 0x08#8) = .instr (.std 3 1 8)) ∧
    ∀ s ∈ [sTwo, sTwoFaults, sTwo.writeGpr 1 0xFFFFFFFF#64],
      s.turns = [] ∧ s.ctx = { sStd.ctx with gpr := s.ctx.gpr } ∧ s.env.text = sStd.env.text ∧ s.env.endPc = none ∧
        (∃ p ∈ s.parked, p.ctx.stop = none ∧ s.env.endPc ≠ some p.ctx.pc) := by decide

theorem witness_StepRunsDecodedInstruction_stops :
    execFaults sTwoFaults = true ∧ execRefused (sTwo.writeGpr 1 0xFFFFFFFF#64) = false ∧ execRefused (sTwo.writeGpr 1 0xFFFFFFF7#64) = true := by decide

/-- Each clause of `StopsBeforeExecution`: a pc one before a multiple of 4, a text whose last byte is missing, an undecoded word, a pc at `END_PC` and one that is not. -/
theorem witness_StopsBeforeExecution :
    (let s : State := { State.reset with ctx := { State.reset.ctx with pc := 0x00010003#32 } }
     s.ctx.pc.toNat % 4 ≠ 0) ∧
    (let s : State := { State.reset with env := { State.reset.env with text := [(0x10000, 0xF8#8), (0x10001, 0x61#8), (0x10002, 0x00#8)] } }
     s.ctx.pc.toNat % 4 = 0 ∧ ∃ k < 4, Memory.read s.env.text (s.ctx.pc.toNat + k) = none) ∧
    (let s := start [] 0xF8000002
     s.ctx.pc.toNat % 4 = 0 ∧
      Memory.read s.env.text s.ctx.pc.toNat = some 0xF8#8 ∧ Memory.read s.env.text (s.ctx.pc.toNat + 1) = some 0x00#8 ∧
      Memory.read s.env.text (s.ctx.pc.toNat + 2) = some 0x00#8 ∧ Memory.read s.env.text (s.ctx.pc.toNat + 3) = some 0x02#8 ∧
      decode (0xF8#8 ++ 0x00#8 ++ 0x00#8 ++ 0x02#8) = .undecoded) ∧
    (let s : State := { State.reset with env := { State.reset.env with endPc := some 0x00010000#32 } }
     s.turns = [] ∧ s.parked = [] ∧ s.ctx.stop = none ∧ s.env.endPc = some s.ctx.pc) ∧
    (State.reset.turns = [] ∧ State.reset.parked = [] ∧ State.reset.ctx.stop = none ∧ State.reset.env.endPc ≠ some State.reset.ctx.pc) := by decide

/-- The executing agent's run has ended. -/
def stopped (s : State) : State := { s with ctx := { s.ctx with stop := some (.refuse .addressWrap) } }

/-- Each clause of `TurnRunsNamedAgent`: a parked agent that runs, with another that runs beside it; a number no agent has, with the executing agent running, and with it stopped and a parked one running. -/
theorem witness_TurnRunsNamedAgent :
    (let s := twoAgents [.run 1]
     (s.agent :: s.parked.map Parked.id).Nodup ∧ s.turns = [.run 1] ∧
      ∃ c ∈ s.contextOf 1, c.stop = none ∧ s.env.endPc ≠ some c.pc ∧ s.ctx.stop = none ∧ s.env.endPc ≠ some s.ctx.pc) ∧
    (let s := twoAgents [.run 7]
     (s.agent :: s.parked.map Parked.id).Nodup ∧ s.turns = [.run 7] ∧ s.contextOf 7 = none ∧ s.ctx.stop = none ∧ s.env.endPc ≠ some s.ctx.pc) ∧
    (let s := stopped (twoAgents [.run 0])
     (s.agent :: s.parked.map Parked.id).Nodup ∧ s.turns = [.run 0] ∧ (∃ c ∈ s.contextOf 0, c.stop ≠ none) ∧
      ¬ (s.ctx.stop = none ∧ s.env.endPc ≠ some s.ctx.pc) ∧ ∃ p ∈ s.parked, p.ctx.stop = none ∧ s.env.endPc ≠ some p.ctx.pc) := by decide

/-- The parked agent's step faults, and is refused, with another agent running. -/
theorem witness_TurnRunsNamedAgent_stops :
    nextHas { twoAgents [.run 1] with env := { sStd.env with memMap := [] } } (fun t => t.ctx.stop == some (.fault .memNotAdmitted)) = true ∧
      nextHas { twoAgents [.run 1] with env := { sStd.env with text := [] } } (fun t => t.ctx.stop == some (.refuse .fetchNotAdmitted)) = true := by decide

/-- Each clause of `OutcomeOnceEveryRunHasEnded`: one agent at `END_PC` and the other faulted, refused, at `END_PC`. -/
def sEnded (why : Option Stop) : State :=
  { sTwo with env := { sTwo.env with endPc := some 0x00010000#32 }, parked := [⟨1, { sTwo.ctx with stop := why }⟩] }

theorem witness_OutcomeOnceEveryRunHasEnded :
    (∀ why ∈ [some (.fault .memNotAdmitted), some (.refuse .addressWrap), none],
      (sEnded why).turn = .run 0 ∧ ∀ c ∈ (sEnded why).contexts, c.stop ≠ none ∨ (sEnded why).env.endPc = some c.pc) ∧
    (∃ c ∈ (sEnded (some (.fault .memNotAdmitted))).contexts, c.stop = some (.fault .memNotAdmitted)) ∧
    ((∀ c ∈ (sEnded (some (.refuse .addressWrap))).contexts, c.stop ≠ some (.fault .memNotAdmitted)) ∧
      ∃ c ∈ (sEnded (some (.refuse .addressWrap))).contexts, c.stop ≠ none) ∧
    ∀ c ∈ (sEnded none).contexts, c.stop = none := by decide

/-- Log 27: where every agent is at `END_PC`, a settle turn still makes a waiting byte visible, and the turn of an agent after it ends the run. -/
theorem test_settle_after_the_end :
    nextHas { sEnded none with turns := [.settle 0 5], pending := [⟨0, [(5, 0x01#8)]⟩] } (fun t =>
      t.mem == [(5, 0x01#8)] && t.pending == [] && refusedBy t .runEnded) = true := by decide

/-- The reviewer's case (R102): one agent at `END_PC` and the other faulted is a fault, and no safe run. -/
theorem test_faulted_state_is_not_final : faults (sEnded (some (.fault .memNotAdmitted))) = true ∧ ¬ SafeFrom (sEnded (some (.fault .memNotAdmitted))) :=
  ⟨by decide, fun h => absurd ((h _ .refl).1 { sTwo.ctx with stop := some (.fault .memNotAdmitted) } (by decide)) (by decide)⟩

/-- Each clause of `LastStopIsTheOutcome`: the parked agent stopped for each kind of reason, the executing one faulting or refused. -/
theorem witness_LastStopIsTheOutcome :
    ∀ why ∈ [Stop.fault .memNotAdmitted, Stop.refuse .addressWrap],
      let p : List Parked := [⟨1, { sTwo.ctx with stop := some why }⟩]
      let s : State := { sTwoFaults with parked := p }
      let u : State := { sTwo with parked := p, env := { sTwo.env with text := [] } }
      (s.turns = [] ∧ s.ctx.stop = none ∧ s.env.endPc ≠ some s.ctx.pc ∧ (∀ q ∈ s.parked, q.ctx.stop ≠ none ∨ s.env.endPc = some q.ctx.pc) ∧ faults s = true) ∧
      (u.turns = [] ∧ u.ctx.stop = none ∧ u.env.endPc ≠ some u.ctx.pc ∧ (∀ q ∈ u.parked, q.ctx.stop ≠ none ∨ u.env.endPc = some q.ctx.pc) ∧
        (refusedBy u .fetchNotAdmitted = true ∨ faults u = true)) := by decide

/-- Both forms of the premise: the executing agent stopped, the executing agent at `END_PC`, and the parked one goes on. -/
theorem witness_EndedAgentTakesNoStep :
    (let s := stopped sTwo
     (s.agent :: s.parked.map Parked.id).Nodup ∧ nextHas s (fun _ => true) = true ∧ ∃ c ∈ s.contextOf 0, c.stop ≠ none) ∧
    (let s : State := { sTwo with env := { sTwo.env with endPc := some 0x00010004#32 }, ctx := { sTwo.ctx with pc := 0x00010004#32 } }
     (s.agent :: s.parked.map Parked.id).Nodup ∧ nextHas s (fun _ => true) = true ∧ ∃ c ∈ s.contextOf 0, s.env.endPc = some c.pc) := by decide

/-- A machine whose one agent is at `END_PC`. -/
def sFinal : State := { State.reset with env := { State.reset.env with endPc := some 0x00010000#32 } }

theorem step_sFinal : step sFinal = .refused .runEnded := by rfl

theorem witness_SafeRunNeverStops : SafeFrom sFinal ∧ Reaches sFinal sFinal := by
  refine ⟨fun t ht => ?_, .refl⟩
  have : t = sFinal := by
    induction ht with
    | refl => rfl
    | step _ hs ih => rw [ih, step_sFinal] at hs; cases hs
  subst this
  have hn : ∀ c ∈ sFinal.contexts, c.stop = none := by decide
  exact ⟨hn, .inl ⟨hn, by decide⟩⟩

/-- Each clause of `SettleTurnShowsOldestByte`, on two waiting stores of agent 0 with one of agent 1 between them: no byte waits; program order; a shared address; both atomicities move. -/
theorem witness_SettleTurnShowsOldestByte :
    (let s := sWaiting .bytes .anyOrder 0 9
     s.turns = [.settle 0 9] ∧ ∀ p ∈ s.pending, p.agent = 0 → Memory.read p.cells 9 = none) ∧
    (let s := sWaiting .whole .programOrder 0 7
     let xs : List PendingStore := [⟨0, [(5, 0x01#8), (6, 0x02#8)]⟩, ⟨1, [(6, 0x03#8)]⟩]
     let cells : List Host.Cell := [(6, 0x04#8), (7, 0x05#8)]
     s.turns = [.settle 0 7] ∧ s.pending = xs ++ ⟨0, cells⟩ :: [] ∧ Memory.read cells 7 ≠ none ∧
      (∀ q ∈ xs, q.agent = 0 → Memory.read q.cells 7 = none) ∧ (∃ q ∈ xs, q.agent = 0) ∧
      (∃ q ∈ xs, q.agent = 0 ∧ ∃ c ∈ cells, Memory.read q.cells c.1 ≠ none) ∧ s.env.memoryModel = .programOrder ∧ s.env.storeAtomicity = .whole ∧
      (sWaiting .bytes .anyOrder 0 7).pending = s.pending ∧ (sWaiting .bytes .anyOrder 0 7).env.storeAtomicity = .bytes ∧
      (sWaiting .bytes .anyOrder 0 7).env.memoryModel ≠ .programOrder) ∧
    (let s := sWaiting .whole .programOrder 1 6
     let xs : List PendingStore := [⟨0, [(5, 0x01#8), (6, 0x02#8)]⟩]
     let cells : List Host.Cell := [(6, 0x03#8)]
     s.turns = [.settle 1 6] ∧ s.pending = xs ++ ⟨1, cells⟩ :: [⟨0, [(6, 0x04#8), (7, 0x05#8)]⟩] ∧ Memory.read cells 6 ≠ none ∧
      (∀ q ∈ xs, q.agent = 1 → Memory.read q.cells 6 = none) ∧ (∀ q ∈ xs, q.agent ≠ 1) ∧
      (∀ q ∈ xs, q.agent = 1 → ∀ c ∈ cells, Memory.read q.cells c.1 = none) ∧ s.env.storeAtomicity = .whole ∧ s.env.memoryModel = .programOrder) := by decide

theorem step_sStd : ∃ t, step sStd = .next t := by
  rw [step_of_no_turn (by decide) (by decide), agentStep_of_fetch (i := .std 3 1 8) (by rfl), exec_of_pass (by decide) (by decide)]
  exact ⟨_, rfl⟩

theorem witness_StepKeepsOtherAgents :
    (sStd.agent :: sStd.parked.map Parked.id).Nodup ∧ (∃ t, step sStd = .next t) ∧ sStd.turns = [] := ⟨by decide, step_sStd, by decide⟩

theorem witness_PlacedWordRuns :
    decodeTableWord 32 0xF8610008 = some (.std 3 1 8) ∧ State.reset.parked = [] ∧
      ∃ t, exec (.std 3 1 8) (State.reset.withFetchWord 32 0xF8610008) = .next t :=
  ⟨by decide, by decide, _, exec_of_pass (by decide) (by decide)⟩

/-- With two agents: each of the four instructions may complete (`alone = false`), the invalid form under `snapshot` too. -/
theorem witness_several_agents :
    sTwo.alone = false ∧ (sTwo.eaStd 0 (-8) = 0xFFFFFFF8#32 ∧ sTwo.eaStdu 1 8 = 0x70001008#32 ∧ sTwo.eaStdux 1 2 = 0x70001000#32 ∧
      sTwo.eaStdx 1 2 = 0x70001000#32) ∧ (CanStore sTwo 0xFFFFFFF8#32 ∧ CanStore sTwo 0x70001008#32 ∧ CanStore sTwo 0x70001000#32) ∧
      ({ sTwo with env := sSnapshot.env } : State).alone = false ∧ CanStore { sTwo with env := sSnapshot.env } 0#32 :=
  ⟨by decide, by decide, ⟨(storeChecks_iff _ _).1 (by decide), (storeChecks_iff _ _).1 (by decide), (storeChecks_iff _ _).1 (by decide)⟩, by decide,
    (storeChecks_iff _ _).1 (by decide)⟩

theorem witness_SeveralAgentsStoreWaits :
    sTwo.alone = false ∧ (∃ t, exec (.std 3 1 8) sTwo = .next t) ∧ (∃ t, exec (.stdu 3 1 8) sTwo = .next t) ∧
      (∃ t, exec (.stdux 3 1 2) sTwo = .next t) ∧ ∃ t, exec (.stdx 3 1 2) sTwo = .next t :=
  ⟨by decide, ⟨_, exec_of_pass (by decide) (by decide)⟩, ⟨_, exec_of_pass (by decide) (by decide)⟩, ⟨_, exec_of_pass (by decide) (by decide)⟩,
    _, exec_of_pass (by decide) (by decide)⟩

theorem canStore_first : CanStore sStd 0#32 := canStore_sStd _ (by decide)
theorem canStore_last : CanStore sStd 0xFFFFFFF8#32 := canStore_sStd _ (by decide)
theorem cannotStore_past_last : ¬ CanStore sStd 0xFFFFFFF9#32 := fun h => absurd ((storeChecks_iff _ _).2 h) (by decide)

/-- `std` at the first and at the last admissible address, and one past it. -/
theorem witness_StdStoresDoubleword :
    0xF8610008#32 &&& 0xFC000003#32 = 0xF8000000#32 ∧ sStd.eaStd 0 0 = 0#32 ∧ CanStore sStd 0#32 ∧ sStd.eaStd 0 (-8) = 0xFFFFFFF8#32 ∧
      CanStore sStd 0xFFFFFFF8#32 ∧ sStd.eaStd 0 (-7) = 0xFFFFFFF9#32 ∧ ¬ CanStore sStd 0xFFFFFFF9#32 :=
  ⟨by decide, by decide, canStore_first, by decide, canStore_last, by decide, cannotStore_past_last⟩

/-- `stdu`: the refused form, a valid form (also of `UpdateStoresOldBase`, r = 2), the invalid form under `snapshot`, and a store past the top. -/
theorem witness_StduStoresAndUpdates :
    0xF821FF91#32 &&& 0xFC000003#32 = 0xF8000001#32 ∧ sStd.env.invalidForm = .refuse ∧ (2 : Reg) ≠ 0 ∧ sStd.eaStdu 2 0 = 0#32 ∧
      CanStore sStd 0#32 ∧ sSnapshot.env.invalidForm = .snapshot ∧ sSnapshot.eaStdu 0 (-8) = 0xFFFFFFF8#32 ∧ CanStore sSnapshot 0xFFFFFFF8#32 ∧
      sStd.eaStdu 2 (-7) = 0xFFFFFFF9#32 ∧ ¬ CanStore sStd 0xFFFFFFF9#32 :=
  ⟨by decide, by decide, by decide, by decide, canStore_first, by decide, by decide, (storeChecks_iff _ _).1 (by decide), by decide, cannotStore_past_last⟩

/-- `stdux`: as for `stdu`; r30 holds the offset −8, r29 the offset −7. -/
def sIndexed : State := (sStd.writeGpr 30 0xFFFFFFFFFFFFFFF8#64).writeGpr 29 0xFFFFFFFFFFFFFFF9#64

theorem witness_StduxStoresAndUpdates :
    0x7CC7416A#32 &&& 0xFC0007FF#32 = 0x7C00016A#32 ∧ sIndexed.env.invalidForm = .refuse ∧ (2 : Reg) ≠ 0 ∧
      sIndexed.eaStdux 2 30 = 0xFFFFFFF8#32 ∧ CanStore sIndexed 0xFFFFFFF8#32 ∧ sIndexed.eaStdux 2 29 = 0xFFFFFFF9#32 ∧
      ¬ CanStore sIndexed 0xFFFFFFF9#32 ∧ sSnapshot.env.invalidForm = .snapshot ∧ sSnapshot.eaStdux 0 0 = 0#32 ∧ CanStore sSnapshot 0#32 :=
  ⟨by decide, by decide, by decide, by decide, (storeChecks_iff _ _).1 (by decide), by decide,
    fun h => absurd ((storeChecks_iff _ _).2 h) (by decide), by decide, by decide, (storeChecks_iff _ _).1 (by decide)⟩

theorem witness_StdxStoresDoubleword :
    0x7CA0212A#32 &&& 0xFC0007FF#32 = 0x7C00012A#32 ∧ sIndexed.eaStdx 0 30 = 0xFFFFFFF8#32 ∧ CanStore sIndexed 0xFFFFFFF8#32 ∧
      sIndexed.eaStdx 1 3 = 0xF9ABDDEF#32 ∧ CanStore sIndexed 0xF9ABDDEF#32 ∧ sIndexed.eaStdx 0 29 = 0xFFFFFFF9#32 ∧ ¬ CanStore sIndexed 0xFFFFFFF9#32 :=
  ⟨by decide, by decide, (storeChecks_iff _ _).1 (by decide), by decide, (storeChecks_iff _ _).1 (by decide), by decide,
    fun h => absurd ((storeChecks_iff _ _).2 h) (by decide)⟩

/-- RS = RA, a well-formed displacement, and an address that can be stored to in both forms. -/
theorem witness_UpdateStoresOldBase :
    (Instr.stdu 1 1 (-112)).wf = true ∧ (1 : Reg) ≠ 0 ∧ sStd.eaStdu 1 (-112) = 0x70000F90#32 ∧ CanStore sStd 0x70000F90#32 ∧
      sStd.eaStdux 1 2 = 0x70001000#32 ∧ CanStore sStd 0x70001000#32 :=
  ⟨by decide, by decide, by decide, canStore_sStd _ (by decide), by decide, canStore_sStd _ (by decide)⟩

/-- The rule's example among them. -/
theorem witness_UpdateZeroExtendsAddress :
    (∃ t, exec (.stdu 3 1 (-112)) sStd = .next t) ∧ (∃ t, exec (.stdux 3 1 2) sStd = .next t) ∧
      (sStd.writeGpr 1 0xFFFFFFFF00000010#64).ctx.gpr[(1 : Reg)] = 0xFFFFFFFF00000010#64 ∧
      ∃ t, exec (.stdu 3 1 (-32)) (sStd.writeGpr 1 0xFFFFFFFF00000010#64) = .next t :=
  ⟨⟨_, exec_of_pass (by decide) (by decide)⟩, ⟨_, exec_of_pass (by decide) (by decide)⟩, by decide, ⟨_, exec_of_pass (by decide) (by decide)⟩⟩

/-- A premise for each check: a refused form; EA one past the last; a byte in `TEXT`; a byte outside the map; the last pc. -/
theorem witness_ChecksInOrder :
    sStd.refusesInstr (.stdu 3 0 8) = true ∧ sStd.refusesInstr (.std 3 0 (-4)) = false ∧ (sStd.eaOf (.std 3 0 (-7))).toNat > 0xFFFFFFF8 ∧
      ((sStd.eaOf (.std 3 0 (-8))).toNat ≤ 0xFFFFFFF8 ∧ ∀ k < 8, Memory.read sStd.env.text ((sStd.eaOf (.std 3 0 (-8))).toNat + k) = none) ∧
      (let s := sStd.writeGpr 1 0xFFFC#64
       (s.eaOf (.std 3 1 0)).toNat ≤ 0xFFFFFFF8 ∧ ∃ k < 8, Memory.read s.env.text ((s.eaOf (.std 3 1 0)).toNat + k) ≠ none) ∧
      (let s : State := { sStd with env := { sStd.env with memMap := [⟨0, 7⟩] } }
       ∃ k < 8, ∀ r ∈ s.env.memMap, ¬ (r.base ≤ (s.eaOf (.std 3 0 0)).toNat + k ∧ (s.eaOf (.std 3 0 0)).toNat + k < r.base + r.size)) ∧
      (let s : State := { sStd with ctx := { sStd.ctx with pc := 0xFFFFFFFC#32 } }
       (∀ k < 8, ∃ r ∈ s.env.memMap, r.base ≤ (s.eaOf (.std 3 0 0)).toNat + k ∧ (s.eaOf (.std 3 0 0)).toNat + k < r.base + r.size) ∧
        s.ctx.pc.toNat ≥ 0xFFFFFFFC) := by decide

theorem witness_RegistersReadAndWritten :
    (0 : Reg) ∉ gprReads (.std 3 0 8) ∧ (5 : Reg) ∉ gprWrites (.stdu 3 1 8) ∧ ∃ t, exec (.stdu 3 1 8) sStd = .next t :=
  ⟨by decide, by decide, ⟨_, exec_of_pass (by decide) (by decide)⟩⟩

/-- RA = 1 for the first clause, RB = 1 with RA = 2 for the second, RS = 3. -/
theorem witness_UpperAddressBitsIgnored :
    BitVec.truncate 32 0xABCDEF0170001000#64 = BitVec.truncate 32 sStd.ctx.gpr[(1 : Reg)] ∧ (1 : Reg) ≠ 3 ∧ (1 : Reg) ≠ 2 := by decide

theorem witness_NamedOnlyRegistersUntouched : ∃ t, exec (.stdx 3 1 2) sStd = .next t := ⟨_, exec_of_pass (by decide) (by decide)⟩

theorem witness_UpdatedBaseIsNextBase :
    (1 : Reg) ≠ 0 ∧ (∃ t, exec (.stdu 3 1 (-112)) sStd = .next t) ∧ ∃ t, exec (.stdux 3 1 2) sStd = .next t :=
  ⟨by decide, ⟨_, exec_of_pass (by decide) (by decide)⟩, ⟨_, exec_of_pass (by decide) (by decide)⟩⟩

/-- Tracking on with a reservation held, on with none, and off. -/
theorem witness_ReservationsAfterStore :
    (let s := tracked 0x70001000#64 0xF8610008 [⟨2, 0x70001008 / 8⟩]
     s.env.resvTracking = true ∧ s.resv ≠ [] ∧ ∃ t, exec (.std 3 1 8) s = .next t) ∧
    (let s := tracked 0x70001000#64 0xF8610008 []
     s.env.resvTracking = true ∧ s.resv = [] ∧ ∃ t, exec (.stdu 3 1 8) s = .next t) ∧
    (let s : State := { sStd with resv := [⟨2, 0x70001008 / 8⟩] }
     s.env.resvTracking = false ∧ s.resv ≠ [] ∧ ∃ t, exec (.stdx 3 1 2) s = .next t) :=
  ⟨⟨by decide, by decide, _, exec_of_pass (by decide) (by decide)⟩, ⟨by decide, by decide, _, exec_of_pass (by decide) (by decide)⟩,
    by decide, by decide, _, exec_of_pass (by decide) (by decide)⟩

theorem witness_OneAgentStoresInProgramOrder : sStd.alone = true ∧ Memory.wf sStd.mem ∧ ∃ t, exec (.std 3 1 8) sStd = .next t :=
  ⟨by decide, by decide, ⟨_, exec_of_pass (by decide) (by decide)⟩⟩

/-- Both bytes wait, in one store. -/
theorem witness_SettlingDifferentAddressesCommutes :
    let s := sWaiting .bytes .anyOrder 0 6
    s.env.storeAtomicity = .bytes ∧ s.env.memoryModel = .anyOrder ∧ Memory.wf s.mem ∧ (6 : Nat) ≠ 7 ∧
      ∃ p ∈ s.pending, p.agent = 0 ∧ Memory.read p.cells 6 ≠ none ∧ Memory.read p.cells 7 ≠ none := by decide

theorem witness_EqualReadsEqualMemories :
    Memory.wf (Memory.write [(4, 0x01#8)] 9 0x02#8) ∧ Memory.wf (Memory.write [(9, 0x02#8)] 4 0x01#8) ∧
      ∀ a, Memory.read (Memory.write [(4, 0x01#8)] 9 0x02#8) a = Memory.read (Memory.write [(9, 0x02#8)] 4 0x01#8) a :=
  ⟨by decide, by decide, fun _ => rfl⟩

theorem witness_StoringTwiceIsStoringOnce : Memory.wf sStd.mem ∧ sStd.alone = true := by decide

theorem witness_DecodeOfEncode : (Instr.stdu 31 0 (-32768)).wf = true ∧ (Instr.stdux 0 31 0).wf = true := by decide

theorem witness_EncodeOfDecode :
    decode 0xF8618000#32 = .instr (.std 3 1 (-32768)) ∧ decode 0xF8617FFD#32 = .instr (.stdu 3 1 32764) := by decide

/-- Both ends of the range. -/
theorem witness_DisplacementOfWord :
    decode 0xF8618000#32 = .instr (.std 3 1 (-32768)) ∧ decode 0xF8617FFD#32 = .instr (.stdu 3 1 32764) := by decide

theorem env_wf_sStd : sStd.env.Wf where
  textWf := by decide
  textPlaced := by decide
  mapPlaced := by decide
  endAligned := fun a h => by
    rw [show sStd.env.endPc = none by decide] at h
    cases h
  granule := by decide

theorem inv_sStd : sStd.Inv where
  env := env_wf_sStd
  memWf := by decide
  memPlaced := by decide
  pendPlaced := by decide
  pendWf := by decide
  resvSorted := List.Pairwise.nil
  agents := by decide
  contexts := fun _ hc => List.mem_singleton.1 hc ▸ ⟨by decide, fun _ h => nomatch h⟩

/-- A step from a state that meets the invariant, and `exec`, can stop. -/
theorem witness_StopsForListedReasonsOnly :
    (sStd.writeGpr 1 0xFFFFFFF1#64).Inv ∧ refusedBy (sStd.writeGpr 1 0xFFFFFFF1#64) .addressWrap = true ∧ execFaults sTwoFaults = true :=
  ⟨⟨env_wf_sStd, inv_sStd.memWf, inv_sStd.memPlaced, inv_sStd.pendPlaced, inv_sStd.pendWf, List.Pairwise.nil, inv_sStd.agents,
    fun _ hc => List.mem_singleton.1 hc ▸ ⟨by decide, fun _ h => nomatch h⟩⟩, by decide, by decide⟩

theorem witness_StepKeepsInvariant : sStd.Inv ∧ ∃ t, step sStd = .next t := ⟨inv_sStd, step_sStd⟩

/-- Each form of the premise: a byte of `TEXT`, the first address past `MEM_MAP`. -/
theorem witness_TextAndUnmappedNeverWritten :
    sStd.Inv ∧ (∃ t, step sStd = .next t) ∧ Memory.read sStd.env.text 0x10000 ≠ none ∧
      ∀ r ∈ sStd.env.memMap, ¬ (r.base ≤ 4294967296 ∧ 4294967296 < r.base + r.size) := ⟨inv_sStd, step_sStd, by decide, by decide⟩

theorem witness_StepKeepsParameters : ∃ t, step sStd = .next t := step_sStd

theorem witness_AgentStepAdvancesPcByFour :
    (∃ t, agentStep sStd = .next t) ∧ (sStd.agent :: sStd.parked.map Parked.id).Nodup ∧ (∃ t, step sStd = .next t) ∧ sStd.contextOf 0 = some sStd.ctx :=
  ⟨⟨_, (agentStep_of_fetch (i := .std 3 1 8) rfl).trans (exec_of_pass (by decide) (by decide))⟩, by decide, step_sStd, by decide⟩

end Sys2Proof.Tests
end

section
/-! The displacement of a decoded `std` or `stdu` (30_encoding.md R65). -/

namespace Sys2Proof

open Sys2Proof.Machine

/-- Both DS-form rows build the displacement by `fieldDisp`, and no other row builds a DS-form instruction. -/
theorem disp_eq_fieldDisp_of_decode {w : InsnWord} {rs ra : Reg} {ds : Int}
    (h : decode w = .instr (.std rs ra ds) ∨ decode w = .instr (.stdu rs ra ds)) : ds = fieldDisp w := by
  rcases h with h | h
  · obtain ⟨-, hi⟩ | ⟨-, hi⟩ | ⟨-, hi⟩ | ⟨-, hi⟩ := decode_cases h <;> cases hi
    rfl
  · obtain ⟨-, hi⟩ | ⟨-, hi⟩ | ⟨-, hi⟩ | ⟨-, hi⟩ := decode_cases h <;> cases hi
    rfl

/-- Appending two zero bits scales the signed field by 4. -/
theorem fieldDisp_eq_four_mul (w : InsnWord) : fieldDisp w = 4 * (fieldDS w).toInt := BitVec.toInt_append_zero

theorem fieldDS_toInt_range (w : InsnWord) : -8192 ≤ (fieldDS w).toInt ∧ (fieldDS w).toInt < 8192 :=
  ⟨BitVec.le_toInt _, BitVec.toInt_lt⟩

/-- A displacement names its field: four times the signed value of a field is reached by that field only. -/
theorem fieldDisp_eq_iff_fieldDS_eq (w : InsnWord) (f : BitVec 14) : fieldDisp w = 4 * f.toInt ↔ fieldDS w = f := by
  rw [fieldDisp_eq_four_mul, ← BitVec.toInt_inj]
  omega

/-- The sign bit of the DS field is bit 15 of the word. -/
theorem msb_fieldDS (w : InsnWord) : (fieldDS w).msb = w.getLsbD 15 := by
  simp [fieldDS, BitVec.msb_extractLsb', BitVec.getMsbD]

theorem fieldDisp_neg_iff (w : InsnWord) : fieldDisp w < 0 ↔ w.getLsbD 15 = true := by
  rw [fieldDisp_eq_four_mul, ← msb_fieldDS, BitVec.msb_eq_toInt, decide_eq_true_iff]
  omega

/-- Clearing the two extended-opcode bits of the low half leaves the DS field with two zero bits appended. -/
theorem fieldDS_append_zeros_eq_and_mask (w : InsnWord) : fieldDS w ++ 0#2 = w.extractLsb' 0 16 &&& 0xFFFC#16 := by
  have hlow : w.extractLsb' 0 16 = fieldDS w ++ w.extractLsb' 0 2 :=
    (BitVec.extractLsb'_append_extractLsb'_eq_extractLsb' (start₁ := 0) (len₁ := 2) (len₂ := 14) rfl).symm
  have hmask : 0xFFFC#16 = BitVec.allOnes 14 ++ 0#2 := by decide
  rw [hlow, hmask, BitVec.and_append, BitVec.and_allOnes, BitVec.and_zero]

/-- `D` is the appended field sign-extended: sign extension is the same residue of the same signed value. -/
theorem dispWord_fieldDisp (w : InsnWord) : dispWord (fieldDisp w) = (fieldDS w ++ 0#2).signExtend 64 := rfl

/-- Settles O38: the displacement is four times the signed DS field, from which range, ends and sign follow. -/
theorem displacementOfWord : Obligations.DisplacementOfWord := by
  intro w rs ra ds h
  obtain rfl := disp_eq_fieldDisp_of_decode h
  have hmul := fieldDisp_eq_four_mul w
  obtain ⟨hlo, hhi⟩ := fieldDS_toInt_range w
  refine ⟨dispWord_fieldDisp w, ?_, by omega, by omega, by omega, fieldDisp_neg_iff w, ?_, ?_⟩
  · rw [dispWord_fieldDisp, fieldDS_append_zeros_eq_and_mask]
  · exact fieldDisp_eq_iff_fieldDS_eq w 0b10000000000000#14
  · exact fieldDisp_eq_iff_fieldDS_eq w 0b01111111111111#14

end Sys2Proof
end

section
/-! The encoder's words decode back, field by field (30_encoding.md R63, R65, R73). -/

namespace Sys2Proof

/-- An encoded word is read by its own row of the opcode map. -/
theorem decode_encode_eq_build (i : Instr) : decode (encode i) = .instr (i.row.build (encode i)) := by
  cases i with
  | std rs ra ds => exact decode_of_rowStd (beq_iff_eq.1 (Laws.EncodeRow.std rs ra ds))
  | stdu rs ra ds => exact decode_of_rowStdu (beq_iff_eq.1 (Laws.EncodeRow.stdu rs ra ds))
  | stdux rs ra rb => exact decode_of_rowStdux (beq_iff_eq.1 (Laws.EncodeRow.stdux rs ra rb))
  | stdx rs ra rb => exact decode_of_rowStdx (beq_iff_eq.1 (Laws.EncodeRow.stdx rs ra rb))

/-! A word of three fields over an opcode whose bits lie outside them: each field reads back. -/

theorem fieldRS_of_parts {w op rest : InsnWord} {rs ra : Reg} (hw : w = op ||| putReg rs 21 ||| putReg ra 16 ||| rest)
    (hop : op.extractLsb' 21 5 = 0#5) (hrest : rest.extractLsb' 21 5 = 0#5) : fieldRS w = rs := by
  rw [hw, fieldRS, extractLsb'_or, extractLsb'_or, extractLsb'_or, hop, hrest, putReg_extract_field rs 21 (by omega),
    putReg_extract_outside ra 16 21 5 (by omega), BitVec.zero_or, BitVec.or_zero, BitVec.or_zero]

theorem fieldRA_of_parts {w op rest : InsnWord} {rs ra : Reg} (hw : w = op ||| putReg rs 21 ||| putReg ra 16 ||| rest)
    (hop : op.extractLsb' 16 5 = 0#5) (hrest : rest.extractLsb' 16 5 = 0#5) : fieldRA w = ra := by
  rw [hw, fieldRA, extractLsb'_or, extractLsb'_or, extractLsb'_or, hop, hrest, putReg_extract_field ra 16 (by omega),
    putReg_extract_outside rs 21 16 5 (by omega), BitVec.or_zero, BitVec.or_zero, BitVec.zero_or]

theorem fieldRB_of_parts {w op : InsnWord} {rs ra rb : Reg} (hw : w = op ||| putReg rs 21 ||| putReg ra 16 ||| putReg rb 11)
    (hop : op.extractLsb' 11 5 = 0#5) : fieldRB w = rb := by
  rw [hw, fieldRB, extractLsb'_or, extractLsb'_or, extractLsb'_or, hop, putReg_extract_field rb 11 (by omega),
    putReg_extract_outside rs 21 11 5 (by omega), putReg_extract_outside ra 16 11 5 (by omega), BitVec.or_zero, BitVec.or_zero, BitVec.zero_or]

/-- A multiple of 4 has its two low bits clear, so the encoder's mask keeps it. -/
theorem ofInt_and_dispMask {ds : Int} (h : ds % 4 = 0) : BitVec.ofInt 16 ds &&& 0xFFFC#16 = BitVec.ofInt 16 ds := by
  obtain ⟨q, rfl⟩ := Int.dvd_of_emod_eq_zero h
  have hshift : BitVec.ofInt 16 (4 * q) = BitVec.ofInt 16 q <<< 2 := by
    rw [BitVec.shiftLeft_eq_mul_twoPow, Int.mul_comm, BitVec.ofInt_mul]
    rfl
  have hmask : 0xFFFC#16 = BitVec.allOnes 16 <<< 2 := by decide
  rw [hshift, hmask, ← BitVec.shiftLeft_and_distrib, BitVec.and_allOnes]

theorem putDisp_extract_low (ds : Int) : (putDisp ds).extractLsb' 0 16 = BitVec.ofInt 16 ds &&& 0xFFFC#16 := by
  rw [putDisp, BitVec.zeroExtend, BitVec.extractLsb'_setWidth_of_le (by omega), BitVec.extractLsb'_eq_self]

/-- Of the low half of a DS-form word only the two lowest bits are the opcode's, and the displacement does not read them. -/
theorem fieldDisp_of_parts {w op : InsnWord} {rs ra : Reg} {ds : Int} (hw : w = op ||| putReg rs 21 ||| putReg ra 16 ||| putDisp ds)
    (hop : op.extractLsb' 0 16 &&& 0xFFFC#16 = 0#16) (ha : dispAligned ds = true) (hr : dispInRange ds = true) : fieldDisp w = ds := by
  have hmul : ds % 4 = 0 := beq_iff_eq.1 ha
  obtain ⟨hlo, hhi⟩ : -32768 ≤ ds ∧ ds ≤ 32764 := by simpa [dispInRange] using hr
  have hlow : fieldDS w ++ 0#2 = BitVec.ofInt 16 ds := by
    rw [fieldDS_append_zeros_eq_and_mask, hw, extractLsb'_or, extractLsb'_or, extractLsb'_or, putDisp_extract_low, ofInt_and_dispMask hmul,
      putReg_extract_outside rs 21 0 16 (by omega), putReg_extract_outside ra 16 0 16 (by omega), BitVec.or_zero, BitVec.or_zero,
      BitVec.and_or_distrib_right, hop, BitVec.zero_or, ofInt_and_dispMask hmul]
  rw [fieldDisp, hlow]
  exact BitVec.toInt_ofInt_eq_self (by decide) (by omega) (by omega)

/-- The three fields of a DS-form word. -/
theorem dsForm_fields {w op : InsnWord} {rs ra : Reg} {ds : Int} (hw : w = op ||| putReg rs 21 ||| putReg ra 16 ||| putDisp ds)
    (hS : op.extractLsb' 21 5 = 0#5) (hA : op.extractLsb' 16 5 = 0#5) (hD : op.extractLsb' 0 16 &&& 0xFFFC#16 = 0#16)
    (h : (dispAligned ds && dispInRange ds) = true) : fieldRS w = rs ∧ fieldRA w = ra ∧ fieldDisp w = ds := by
  obtain ⟨ha, hr⟩ := Bool.and_eq_true_iff.1 h
  exact ⟨fieldRS_of_parts hw hS (putDisp_extract_high ds 21 5 (by omega)), fieldRA_of_parts hw hA (putDisp_extract_high ds 16 5 (by omega)),
    fieldDisp_of_parts hw hD ha hr⟩

/-- The three fields of an X-form word. -/
theorem xForm_fields {w op : InsnWord} {rs ra rb : Reg} (hw : w = op ||| putReg rs 21 ||| putReg ra 16 ||| putReg rb 11)
    (hS : op.extractLsb' 21 5 = 0#5) (hA : op.extractLsb' 16 5 = 0#5) (hB : op.extractLsb' 11 5 = 0#5) :
    fieldRS w = rs ∧ fieldRA w = ra ∧ fieldRB w = rb :=
  ⟨fieldRS_of_parts hw hS (putReg_extract_outside rb 11 21 5 (by omega)), fieldRA_of_parts hw hA (putReg_extract_outside rb 11 16 5 (by omega)),
    fieldRB_of_parts hw hB⟩

/-- The row of an instruction builds it from its own encoded word. -/
theorem build_encode {i : Instr} (h : i.wf = true) : i.row.build (encode i) = i := by
  cases i with
  | std rs ra ds =>
    obtain ⟨hS, hA, hD⟩ := dsForm_fields (w := encode (.std rs ra ds)) rfl (by decide) (by decide) (by decide) h
    simp only [Instr.row, rowStd, hS, hA, hD]
  | stdu rs ra ds =>
    obtain ⟨hS, hA, hD⟩ := dsForm_fields (w := encode (.stdu rs ra ds)) rfl (by decide) (by decide) (by decide) h
    simp only [Instr.row, rowStdu, hS, hA, hD]
  | stdux rs ra rb =>
    obtain ⟨hS, hA, hB⟩ := xForm_fields (w := encode (.stdux rs ra rb)) rfl (by decide) (by decide) (by decide)
    simp only [Instr.row, rowStdux, hS, hA, hB]
  | stdx rs ra rb =>
    obtain ⟨hS, hA, hB⟩ := xForm_fields (w := encode (.stdx rs ra rb)) rfl (by decide) (by decide) (by decide)
    simp only [Instr.row, rowStdx, hS, hA, hB]

/-- A well-formed instruction is what its encoded word decodes to. -/
theorem decode_encode {i : Instr} (h : i.wf = true) : decode (encode i) = .instr i := by
  rw [decode_encode_eq_build, build_encode h]

end Sys2Proof
end

section
/-! The update forms: the base register afterwards, and RS = RA (40_store_doubleword.md R82, R83, R85, R86). -/

namespace Sys2Proof

open Sys2Proof.Machine

/-- Every general register an instruction writes, it writes with the zero-extended EA. -/
theorem gpr_of_exec_of_mem_gprWrites {i : Instr} {s t : State} {r : Reg} (h : exec i s = .next t) (hr : r ∈ gprWrites i) :
    t.ctx.gpr[r] = zext64 (s.eaOf i) := by
  obtain ⟨-, -, rfl⟩ := exec_next h
  cases i with
  | std => cases hr
  | stdx => cases hr
  | stdu rs ra ds =>
    obtain rfl := List.mem_singleton.1 hr
    simp [State.effectsOf, State.eaOf, State.storeUpdateEffects_ctx]
  | stdux rs ra rb =>
    obtain rfl := List.mem_singleton.1 hr
    simp [State.effectsOf, State.eaOf, State.storeUpdateEffects_ctx]

/-- An update form is refused for its base field only where that field is 0 and the policy refuses it. -/
theorem refusesInstr_eq_false_of_mem_gprWrites {i : Instr} {s : State} {r : Reg} (hr : r ∈ gprWrites i)
    (hf : r ≠ 0 ∨ s.env.invalidForm = .snapshot) : s.refusesInstr i = false := by
  have hform : s.refusesForm r = false := by
    rcases hf with hf | hf <;> simp [State.refusesForm, hf]
  cases i with
  | std => rfl
  | stdx => rfl
  | stdu rs ra ds =>
    obtain rfl := List.mem_singleton.1 hr
    exact hform
  | stdux rs ra rb =>
    obtain rfl := List.mem_singleton.1 hr
    exact hform

/-- Where the register stored is also the one updated, its old value is stored and the EA replaces it. -/
theorem exec_stores_old_base {i : Instr} {s : State} {r : Reg} (hs : storedReg i = r) (hr : r ∈ gprWrites i)
    (hf : r ≠ 0 ∨ s.env.invalidForm = .snapshot) (hc : CanStore s (s.eaOf i)) :
    ∃ t, exec i s = .next t ∧ t.ctx.gpr[r] = zext64 (s.eaOf i) ∧
      ∀ k < 8, t.readByte ((s.eaOf i).toNat + k) = some (s.ctx.gpr[r].extractLsb' (56 - 8 * k) 8) := by
  have he := exec_of_pass (refusesInstr_eq_false_of_mem_gprWrites hr hf) ((storeChecks_iff s _).2 hc)
  subst hs
  exact ⟨_, he, gpr_of_exec_of_mem_gprWrites he hr, (stored_of_exec he).bytes⟩

/-- Settles O15: RS = RA decodes like every operand, and the stored value is that of the state before the update. -/
theorem updateStoresOldBase : Obligations.UpdateStoresOldBase := by
  refine ⟨fun r ds h => decode_encode h, fun r rb => decode_encode rfl, fun r s hf => ⟨?_, ?_⟩⟩
  · rintro ds ea rfl hc
    exact exec_stores_old_base (i := .stdu r r ds) rfl (List.mem_singleton_self r) hf hc
  · rintro rb ea rfl hc
    exact exec_stores_old_base (i := .stdux r r rb) rfl (List.mem_singleton_self r) hf hc

theorem zext64_extract_high (a : Addr) : (zext64 a).extractLsb' 32 32 = 0#32 := by
  ext
  simp [zext64]

theorem zext64_extract_low (a : Addr) : (zext64 a).extractLsb' 0 32 = a := by
  rw [zext64, BitVec.zeroExtend, BitVec.extractLsb'_setWidth_of_le (by omega), BitVec.extractLsb'_eq_self]

/-- The whole register an instruction writes, and its two halves. -/
theorem halves_of_exec_of_mem_gprWrites {i : Instr} {s t : State} {r : Reg} (h : exec i s = .next t) (hr : r ∈ gprWrites i) :
    t.ctx.gpr[r] = zext64 (s.eaOf i) ∧ t.ctx.gpr[r].extractLsb' 32 32 = 0#32 ∧ t.ctx.gpr[r].extractLsb' 0 32 = s.eaOf i := by
  rw [gpr_of_exec_of_mem_gprWrites h hr]
  exact ⟨rfl, zext64_extract_high _, zext64_extract_low _⟩

/-- The sum of R86's example, cut to its low 32 bits. -/
theorem effAddr_example : effAddr 0xFFFFFFFF00000010#64 (dispWord (-32)) = 0xFFFFFFF0#32 := by decide

/-- Settles O16: both update forms write the zero-extended EA; the rule's example is one such sum. -/
theorem updateZeroExtendsAddress : Obligations.UpdateZeroExtendsAddress := by
  refine ⟨fun rs ra ds s t h => halves_of_exec_of_mem_gprWrites h (List.mem_singleton_self ra),
    fun rs ra rb s t h => halves_of_exec_of_mem_gprWrites h (List.mem_singleton_self ra), fun rs ra s t hbase h => ?_⟩
  have hgpr : t.ctx.gpr[ra] = zext64 (s.eaOf (.stdu rs ra (-32))) := gpr_of_exec_of_mem_gprWrites h (List.mem_singleton_self ra)
  calc t.ctx.gpr[ra]
    _ = zext64 (effAddr s.ctx.gpr[ra] (dispWord (-32))) := hgpr
    _ = zext64 0xFFFFFFF0#32 := by rw [hbase, effAddr_example]
    _ = 0x00000000FFFFFFF0#64 := by decide

end Sys2Proof
end

section
/-! The decoded word is what the encoder gives for what it decodes to (30_encoding.md R67, R68, R70). -/

namespace Sys2Proof

/-- Settles O35: the row of a well-formed instruction reads its own encoded word, and builds the instruction from it field by field. -/
theorem decodeOfEncode : Obligations.DecodeOfEncode := fun _ h => decode_encode h

/-! A field read from a word and put back is that word under the field's mask. -/

theorem putReg_extract (w : InsnWord) {l : Nat} (hl : l + 5 ≤ 32) : putReg (w.extractLsb' l 5).toFin l = w &&& (31#32 <<< l) := by
  apply BitVec.eq_of_getLsbD_eq
  intro k hk
  have h31 (j : Nat) : (31#32).getLsbD j = decide (j < 5) := by
    rw [show 31#32 = BitVec.setWidth 32 (BitVec.allOnes 5) from rfl, BitVec.getLsbD_setWidth, BitVec.getLsbD_allOnes]
    simp
    omega
  simp only [putReg, BitVec.zeroExtend, BitVec.getLsbD_shiftLeft, BitVec.getLsbD_setWidth, BitVec.getLsbD_and, h31, BitVec.ofFin_toFin, BitVec.getLsbD_extractLsb', hk]
  by_cases h : k < l
  · simp [h]
  · have e : l + (k - l) = k := by omega
    have e' : k - l < 32 := by omega
    simp [h, e, e', Bool.and_comm]

theorem putDisp_fieldDisp (w : InsnWord) : putDisp (fieldDisp w) = w &&& 0xFFFC#32 := by
  have hlow : fieldDS w ++ 0#2 &&& 0xFFFC#16 = w.extractLsb' 0 16 &&& 0xFFFC#16 := by
    rw [fieldDS_append_zeros_eq_and_mask, BitVec.and_assoc, BitVec.and_self]
  rw [putDisp, fieldDisp, BitVec.ofInt_toInt, hlow]
  apply BitVec.eq_of_getLsbD_eq
  intro k hk
  have hhigh (h : ¬ k < 16) : (0xFFFC#32).getLsbD k = false := by
    rw [show 0xFFFC#32 = BitVec.setWidth 32 0xFFFC#16 from rfl, BitVec.getLsbD_setWidth, BitVec.getLsbD_of_ge _ _ (by omega), Bool.and_false]
  by_cases h : k < 16
  · simp [h, hk]
  · rw [BitVec.getLsbD_and, hhigh h, BitVec.zeroExtend, BitVec.getLsbD_setWidth, BitVec.getLsbD_of_ge _ _ (by omega), Bool.and_false, Bool.and_false]

/-- A word is the union of its parts under masks that cover every bit. -/
theorem or_of_masks {w op m a b c : InsnWord} (h : w &&& m = op) (hall : m ||| a ||| b ||| c = BitVec.allOnes 32) :
    op ||| (w &&& a) ||| (w &&& b) ||| (w &&& c) = w := by
  rw [← h, ← BitVec.and_or_distrib_left, ← BitVec.and_or_distrib_left, ← BitVec.and_or_distrib_left, hall, BitVec.and_allOnes]

/-- The displacement a word holds passes the assembler's checks. -/
theorem fieldDisp_wf (w : InsnWord) : (dispAligned (fieldDisp w) && dispInRange (fieldDisp w)) = true := by
  obtain ⟨hlo, hhi⟩ := fieldDS_toInt_range w
  simp [dispAligned, dispInRange, fieldDisp_eq_four_mul]
  omega

/-- Settles O36: a decoded word is the union of its opcode bits and its fields, and the encoder puts each back in its place. -/
theorem encodeOfDecode : Obligations.EncodeOfDecode := by
  intro w i h
  have hS : putReg (fieldRS w) 21 = w &&& (31#32 <<< 21) := putReg_extract w (by omega)
  have hA : putReg (fieldRA w) 16 = w &&& (31#32 <<< 16) := putReg_extract w (by omega)
  have hB : putReg (fieldRB w) 11 = w &&& (31#32 <<< 11) := putReg_extract w (by omega)
  have hD := putDisp_fieldDisp w
  obtain ⟨hm, rfl⟩ | ⟨hm, rfl⟩ | ⟨hm, rfl⟩ | ⟨hm, rfl⟩ := decode_cases h
  · refine ⟨fieldDisp_wf w, ?_⟩
    simp only [rowStd, encode, hS, hA, hD]
    exact or_of_masks hm (by decide)
  · refine ⟨fieldDisp_wf w, ?_⟩
    simp only [rowStdu, encode, hS, hA, hD]
    exact or_of_masks hm (by decide)
  · refine ⟨rfl, ?_⟩
    simp only [rowStdux, encode, hS, hA, hB]
    exact or_of_masks hm (by decide)
  · refine ⟨rfl, ?_⟩
    simp only [rowStdx, encode, hS, hA, hB]
    exact or_of_masks hm (by decide)

/-- A list of rows leaves a word undecoded exactly where none of them matches it. -/
theorem decodeWith_eq_undecoded_iff (rs : List OpcodeRow) (w : InsnWord) :
    decodeWith rs w = .undecoded ↔ ∀ r ∈ rs, r.matches w = false := by
  induction rs with
  | nil => simp [decodeWith]
  | cons r rs ih =>
    rw [decodeWith, List.forall_mem_cons, ← ih]
    cases r.matches w <;> simp

/-- Settles O37: the four rows of the map, each by its mask and pattern. -/
theorem undecodedExactlyOffTheMap : Obligations.UndecodedExactlyOffTheMap := by
  intro w
  rw [decode, decodeWith_eq_undecoded_iff]
  simp [opcodeMap, OpcodeRow.matches, rowStd, rowStdu, rowStdux, rowStdx]

/-- Settles O39: six closed words, each run through the decoder. -/
theorem listedWordsDecode : Obligations.ListedWordsDecode := by
  unfold Obligations.ListedWordsDecode
  decide

end Sys2Proof
end

section
/-! What `exec` and an agent's step answer, for all four instructions at once (60_exceptions.md R102, R103, R105). -/

namespace Sys2Proof.Machine

/-- Outside the executing agent's own registers an instruction's effects are effects 2 and 3 of 40_store_doubleword.md R80. -/
theorem State.effectsOf_eq (s : State) (i : Instr) :
    s.effectsOf i =
      { (s.reservationsInvalidate (s.eaOf i)).memWrite (s.eaOf i) (s.readGpr (storedReg i)) with ctx := (s.effectsOf i).ctx } := by
  cases i <;> rfl

/-- Of the executing agent's own registers an instruction changes general registers and the pc. -/
theorem State.effectsOf_ctx (s : State) (i : Instr) :
    (s.effectsOf i).ctx = { s.ctx with gpr := (s.effectsOf i).ctx.gpr, pc := s.ctx.pc + 4#32 } := by
  cases i <;> simp only [State.effectsOf, State.storeEffects_ctx, State.storeUpdateEffects_ctx]

theorem ctx_of_exec {i : Instr} {s t : State} (h : exec i s = .next t) :
    t.ctx = { s.ctx with gpr := t.ctx.gpr, pc := s.ctx.pc + 4#32 } := by
  obtain ⟨-, -, rfl⟩ := exec_next h
  exact s.effectsOf_ctx i

/-- An instruction completes where its form is not refused and the checks pass. -/
theorem canStore_of_exec {i : Instr} {s t : State} (h : exec i s = .next t) : CanStore s (s.eaOf i) :=
  (storeChecks_iff s _).1 (exec_next h).2.1

theorem pc_toNat_of_exec {i : Instr} {s t : State} (h : exec i s = .next t) : t.ctx.pc.toNat = s.ctx.pc.toNat + 4 := by
  obtain ⟨hpc, hfit⟩ := pc_of_exec h
  rw [hpc, BitVec.toNat_add, Nat.mod_eq_of_lt (by simpa using hfit)]
  rfl

/-- There is one fault. -/
theorem Fault.eq_memNotAdmitted (f : Fault) : f = .memNotAdmitted := by cases f; rfl

theorem exec_refused {i : Instr} {s : State} {r : Refusal} (h : exec i s = .refused r) :
    r ∈ [Refusal.invalidFormRA0, .addressWrap, .storeToText, .pcWrap] := by
  rw [exec_eq] at h
  split at h
  · cases h
    simp
  · obtain hs | hs | hs | hs | hs := checkStore_stops s (s.eaOf i) (s.effectsOf i) <;> rw [hs] at h <;> cases h <;> simp

theorem State.fetchInstr_error {s : State} {r : Refusal} (h : s.fetchInstr = .error r) :
    r ∈ [Refusal.pcMisaligned, .fetchNotAdmitted, .undecodedWord] := by
  unfold State.fetchInstr at h
  repeat' split at h
  all_goals cases h
  all_goals simp

/-- Everything an agent's step can be refused for: a check of the fetch, or one of the instruction. -/
theorem agentStep_refused {s : State} {r : Refusal} (h : agentStep s = .refused r) :
    r ∈ [Refusal.pcMisaligned, .fetchNotAdmitted, .undecodedWord, .invalidFormRA0, .addressWrap, .storeToText, .pcWrap] := by
  unfold agentStep at h
  split at h
  · cases h
    exact List.mem_append_left [Refusal.invalidFormRA0, .addressWrap, .storeToText, .pcWrap] (State.fetchInstr_error ‹_›)
  · exact List.mem_append_right [Refusal.pcMisaligned, .fetchNotAdmitted, .undecodedWord] (exec_refused h)

theorem Stop.listed_refuse {r : Refusal} : (Stop.refuse r).listed = true ↔
    r ∈ [Refusal.pcMisaligned, .fetchNotAdmitted, .undecodedWord, .invalidFormRA0, .addressWrap, .storeToText, .pcWrap] :=
  List.contains_iff_mem

/-- The answer of a step that ends its agent's run for a reason. -/
def Stop.outcome : Stop → Host.Outcome State Fault Refusal
  | .fault f => .fault f
  | .refuse r => .refused r

/-- An agent's run ends for a reason of the closed list only. -/
theorem listed_of_agentStep {s : State} {why : Stop} (h : agentStep s = why.outcome) : why.listed = true := by
  cases why with
  | fault f => rw [f.eq_memNotAdmitted]; rfl
  | refuse r => exact Stop.listed_refuse.2 (agentStep_refused h)

end Sys2Proof.Machine
end

section
/-! Every operation a step is made of keeps the invariant. -/

namespace Sys2Proof.Machine

variable {s t : State}

theorem CanStore.storable {ea : Addr} (h : CanStore s ea) {k : Nat} (hk : k < 8) :
    ea.toNat + k < Config.spaceSize ∧ s.env.storable (ea.toNat + k) = true := by
  have hfits := h.fits
  obtain ⟨r, hr, hlo, hhi⟩ := h.mapped k hk
  have hmap : s.env.inMap (ea.toNat + k) = true := List.any_eq_true.2 ⟨r, hr, by simp [Region.contains, hlo, hhi]⟩
  exact ⟨by rw [Config.spaceSize]; omega, by simp [Env.storable, hmap, Env.inText, h.notText k hk]⟩

/-- Every byte of an admitted store may be written. -/
theorem CanStore.cells_storable {ea : Addr} (h : CanStore s ea) {v : Word} {c : Host.Cell} (hc : c ∈ storeCells ea v) :
    c.1 < Config.spaceSize ∧ s.env.storable c.1 = true := by
  obtain ⟨k, hk, rfl⟩ := mem_storeCells.1 hc
  exact h.storable hk

theorem State.Inv.popTurn (h : s.Inv) : s.popTurn.Inv :=
  ⟨h.env, h.memWf, h.memPlaced, h.pendPlaced, h.pendWf, h.resvSorted, h.agents, h.contexts⟩

/-- The executing agent's own state may be any that is in order. -/
theorem State.Inv.withCtx (h : s.Inv) {c : Context} (hc : c.Ok) : ({ s with ctx := c } : State).Inv where
  env := h.env
  memWf := h.memWf
  memPlaced := h.memPlaced
  pendPlaced := h.pendPlaced
  pendWf := h.pendWf
  resvSorted := h.resvSorted
  agents := h.agents
  contexts d hd := by
    rcases State.mem_contexts.1 hd with rfl | hp
    · exact hc
    · exact h.contexts d (State.mem_contexts.2 (.inr hp))

theorem State.Inv.ctx_ok (h : s.Inv) : s.ctx.Ok := h.contexts _ (State.mem_contexts.2 (.inl rfl))

/-- Two agents change places: the agents' numbers are the same ones. -/
theorem State.switchTo_agents_perm (s : State) (ag : Nat) :
    ((s.switchTo ag).agent :: (s.switchTo ag).parked.map Parked.id).Perm (s.agent :: s.parked.map Parked.id) := by
  rcases s.switchTo_cases ag with e | ⟨c, xs, ys, -, hp, -, e⟩
  · rw [e]
  · rw [e, hp]
    simp only [List.map_append, List.map_cons]
    exact (List.perm_middle.cons _).trans ((List.Perm.swap _ _ _).trans (List.perm_middle.symm.cons _))

theorem State.switchTo_contexts_perm (s : State) (ag : Nat) : (s.switchTo ag).contexts.Perm s.contexts := by
  rcases s.switchTo_cases ag with e | ⟨c, xs, ys, -, hp, -, e⟩
  · rw [e]
  · rw [e, State.contexts, State.contexts, hp]
    simp only [List.map_append, List.map_cons]
    exact (List.perm_middle.cons _).trans ((List.Perm.swap _ _ _).trans (List.perm_middle.symm.cons _))

theorem State.Inv.switchTo (h : s.Inv) (ag : Nat) : (s.switchTo ag).Inv where
  env := by simpa using h.env
  memWf := by simpa using h.memWf
  memPlaced := by simpa using h.memPlaced
  pendPlaced := by simpa using h.pendPlaced
  pendWf := by simpa using h.pendWf
  resvSorted := by simpa using h.resvSorted
  agents := (s.switchTo_agents_perm ag).nodup_iff.2 h.agents
  contexts c hc := h.contexts c ((s.switchTo_contexts_perm ag).mem_iff.1 hc)

/-- What goes on waiting of a store is storable and canonical as the store was. -/
theorem State.Inv.settle (h : s.Inv) (ag a : Nat) : (s.settle ag a).Inv := by
  rcases s.settle_cases ag a with e | ⟨xs, p, ys, hp, -, -, -, e⟩
  · rwa [e]
  have hpm : p ∈ s.pending := by simp [hp]
  have hleft : ∀ q ∈ xs ++ (s.env.leftWaiting a p ++ ys), q ∈ s.pending ∨ q ∈ s.env.leftWaiting a p := by
    intro q hq
    simp only [hp, List.mem_append, List.mem_cons] at hq ⊢
    tauto
  rw [e]
  refine ⟨h.env, Memory.writeAll_wf h.memWf _, fun c hc => ?_, fun q hq => ?_, fun q hq => ?_, h.resvSorted, h.agents, h.contexts⟩
  · rcases Memory.mem_writeAll hc with hc | hc
    · exact h.pendPlaced p hpm c (Env.mem_settling hc)
    · exact h.memPlaced c hc
  · rcases hleft q hq with hq | hq
    · exact h.pendPlaced q hq
    · obtain ⟨-, hcells, -⟩ := Env.mem_leftWaiting hq
      rw [hcells]
      exact fun c hc => h.pendPlaced p hpm c (List.mem_of_mem_filter hc)
  · rcases hleft q hq with hq | hq
    · exact h.pendWf q hq
    · obtain ⟨-, hcells, hne⟩ := Env.mem_leftWaiting hq
      exact ⟨hne, hcells ▸ (h.pendWf p hpm).2.filter _⟩

theorem State.Inv.reservationsInvalidate (h : s.Inv) (ea : Addr) : (s.reservationsInvalidate ea).Inv where
  env := by simpa using h.env
  memWf := by simpa using h.memWf
  memPlaced := by simpa using h.memPlaced
  pendPlaced := by simpa using h.pendPlaced
  pendWf := by simpa using h.pendWf
  resvSorted := h.resvSorted.sublist (s.reservationsInvalidate_sublist ea)
  agents := by simpa using h.agents
  contexts := by simpa [State.contexts] using h.contexts

/-- An admitted store keeps the invariant, in memory at once or waiting. -/
theorem State.Inv.memWrite (h : s.Inv) {ea : Addr} (v : Word)
    (hc : ∀ c ∈ storeCells ea v, c.1 < Config.spaceSize ∧ s.env.storable c.1 = true) : (s.memWrite ea v).Inv := by
  cases ha : s.alone
  · rw [State.memWrite_of_not_alone _ _ _ ha]
    refine ⟨h.env, h.memWf, h.memPlaced, fun p hp => ?_, fun p hp => ?_, h.resvSorted, h.agents, h.contexts⟩
    · rcases List.mem_append.1 hp with hp | hp
      · exact h.pendPlaced p hp
      · rw [List.mem_singleton.1 hp]
        exact hc
    · rcases List.mem_append.1 hp with hp | hp
      · exact h.pendWf p hp
      · rw [List.mem_singleton.1 hp]
        exact ⟨by simp [storeCells, offsets], storeCells_wf ea v⟩
  · rw [State.memWrite_of_alone _ _ _ ha]
    refine ⟨h.env, Memory.writeAll_wf h.memWf _, fun c hm => ?_, h.pendPlaced, h.pendWf, h.resvSorted, h.agents, h.contexts⟩
    rcases Memory.mem_writeAll hm with hm | hm
    · exact hc c hm
    · exact h.memPlaced c hm

/-- Four more than an aligned pc is aligned, and an instruction records no stop. -/
theorem Context.Ok.of_exec {i : Instr} (hok : s.ctx.Ok) (he : exec i s = .next t) : t.ctx.Ok where
  pcAligned := by
    rw [pc_toNat_of_exec he]
    have := hok.pcAligned
    omega
  listed := by
    rw [ctx_of_exec he]
    exact hok.listed

theorem State.Inv.of_exec {i : Instr} (h : s.Inv) (he : exec i s = .next t) : t.Inv := by
  have hok := h.ctx_ok.of_exec he
  have hcan := canStore_of_exec he
  obtain ⟨-, -, rfl⟩ := exec_next he
  rw [State.effectsOf_eq]
  refine State.Inv.withCtx ?_ hok
  exact (h.reservationsInvalidate _).memWrite _ fun c hc => by simpa using hcan.cells_storable hc

/-- A recorded stop of the closed list keeps the invariant. -/
theorem State.Inv.stop (h : s.Inv) {why : Stop} (hw : why.listed = true) :
    ({ s with ctx := { s.ctx with stop := some why } } : State).Inv :=
  h.withCtx ⟨h.ctx_ok.pcAligned, fun _ hr => Option.some.inj hr ▸ hw⟩

end Sys2Proof.Machine

namespace Sys2Proof

open Sys2Proof.Machine

/-- Settles O40: each of the three things a step can do keeps the invariant, and so does handing over the turn before it. -/
theorem stepKeepsInvariant : Obligations.StepKeepsInvariant := by
  intro s t h hstep
  obtain ⟨ag, a, -, rfl⟩ | ⟨-, r, i, -, -, -, he⟩ | ⟨-, r, why, -, -, hend, rfl, -⟩ := step_next hstep
  · exact h.popTurn.settle ag a
  · exact (h.popTurn.switchTo r).of_exec he
  · have hw : agentStep (s.popTurn.switchTo r) = why.outcome := by cases why <;> exact hend
    exact (h.popTurn.switchTo r).stop (listed_of_agentStep hw)

end Sys2Proof
end

section
/-! The checks of an instruction, in the spec's numbers and in the spec's order (60_exceptions.md R102, R105). -/

namespace Sys2Proof.Machine

theorem fitsSpace_iff {ea : Addr} : fitsSpace ea = true ↔ ea.toNat ≤ 0xFFFFFFF8 := by
  rw [fitsSpace, decide_eq_true_iff, Config.spaceSize]
  omega

theorem Env.touchesText_iff {e : Env} {ea : Addr} : e.touchesText ea = true ↔ ∃ k < 8, Memory.read e.text (ea.toNat + k) ≠ none := by
  simp [Env.touchesText, mem_offsets, Env.inText, Option.isSome_iff_ne_none]

theorem Env.inMap_iff {e : Env} {a : Nat} : e.inMap a = true ↔ ∃ r ∈ e.memMap, r.base ≤ a ∧ a < r.base + r.size := by
  simp [Env.inMap, Region.contains]

theorem Env.admits_iff {e : Env} {ea : Addr} :
    e.admits ea = true ↔ ∀ k < 8, ∃ r ∈ e.memMap, r.base ≤ ea.toNat + k ∧ ea.toNat + k < r.base + r.size := by
  simp [Env.admits, mem_offsets, Env.inMap_iff]

theorem State.nextPcFits_iff {s : State} : s.nextPcFits = true ↔ s.ctx.pc.toNat < 0xFFFFFFFC := by
  rw [State.nextPcFits, decide_eq_true_iff, Config.insnBytes, Config.spaceSize]
  omega

/-! One lemma per check of a store: the earlier ones pass and this one fails. -/

variable {s : State} {ea : Addr} (t : State)

theorem checkStore_addressWrap (h : ea.toNat > 0xFFFFFFF8) : checkStore s ea t = .refused .addressWrap :=
  if_neg fun hf => absurd (fitsSpace_iff.1 hf) (by omega)

theorem checkStore_storeToText (hf : ea.toNat ≤ 0xFFFFFFF8) (h : ∃ k < 8, Memory.read s.env.text (ea.toNat + k) ≠ none) :
    checkStore s ea t = .refused .storeToText :=
  (if_pos (fitsSpace_iff.2 hf)).trans (if_pos (Env.touchesText_iff.2 h))

theorem checkStore_of_fits_of_notText (hf : ea.toNat ≤ 0xFFFFFFF8) (ht : ∀ k < 8, Memory.read s.env.text (ea.toNat + k) = none) :
    checkStore s ea t = if s.env.admits ea then if s.nextPcFits then .next t else .refused .pcWrap else .fault .memNotAdmitted :=
  (if_pos (fitsSpace_iff.2 hf)).trans (if_neg fun h => by
    obtain ⟨k, hk, hne⟩ := Env.touchesText_iff.1 h
    exact hne (ht k hk))

theorem checkStore_memNotAdmitted (hf : ea.toNat ≤ 0xFFFFFFF8) (ht : ∀ k < 8, Memory.read s.env.text (ea.toNat + k) = none)
    (h : ∃ k < 8, ∀ r ∈ s.env.memMap, ¬ (r.base ≤ ea.toNat + k ∧ ea.toNat + k < r.base + r.size)) :
    checkStore s ea t = .fault .memNotAdmitted := by
  obtain ⟨k, hk, hout⟩ := h
  rw [checkStore_of_fits_of_notText t hf ht]
  exact if_neg fun ha => by
    obtain ⟨r, hr, hin⟩ := Env.admits_iff.1 ha k hk
    exact hout r hr hin

theorem checkStore_pcWrap (hf : ea.toNat ≤ 0xFFFFFFF8) (ht : ∀ k < 8, Memory.read s.env.text (ea.toNat + k) = none)
    (hm : ∀ k < 8, ∃ r ∈ s.env.memMap, r.base ≤ ea.toNat + k ∧ ea.toNat + k < r.base + r.size) (h : s.ctx.pc.toNat ≥ 0xFFFFFFFC) :
    checkStore s ea t = .refused .pcWrap := by
  rw [checkStore_of_fits_of_notText t hf ht, if_pos (Env.admits_iff.2 hm)]
  exact if_neg fun hp => absurd (State.nextPcFits_iff.1 hp) (by omega)

/-! The instruction's own check, and the store's. -/

theorem exec_of_refusesInstr {i : Instr} (h : s.refusesInstr i = true) : exec i s = .refused .invalidFormRA0 := by
  rw [exec_eq, if_pos h]

theorem exec_of_not_refusesInstr {i : Instr} (h : s.refusesInstr i = false) : exec i s = checkStore s (s.eaOf i) (s.effectsOf i) := by
  rw [exec_eq, h]
  rfl

/-- No check of the store answers the form's refusal. -/
theorem exec_invalidForm_iff {i : Instr} : exec i s = .refused .invalidFormRA0 ↔ s.refusesInstr i = true := by
  refine ⟨fun h => ?_, exec_of_refusesInstr⟩
  cases hf : s.refusesInstr i with
  | true => rfl
  | false =>
    rw [exec_of_not_refusesInstr hf] at h
    obtain hs | hs | hs | hs | hs := checkStore_stops s (s.eaOf i) (s.effectsOf i) <;> rw [hs] at h <;> cases h

theorem State.refusesForm_iff {ra : Reg} : s.refusesForm ra = true ↔ ra = 0 ∧ s.env.invalidForm = .refuse := by
  simp [State.refusesForm]

theorem exec_completes_iff {i : Instr} : (∃ t, exec i s = .next t) ↔ (s.refusesInstr i = false ∧ CanStore s (s.eaOf i)) :=
  ⟨fun ⟨_, h⟩ => ⟨(exec_next h).1, canStore_of_exec h⟩, fun ⟨hf, hc⟩ => ⟨_, exec_of_pass hf ((storeChecks_iff s _).2 hc)⟩⟩

/-- An instruction whose form is not refused and whose checks do not pass stops for a reason of the store's. -/
theorem exec_stops_of_not_canStore {i : Instr} (hf : s.refusesInstr i = false) (h : ¬ CanStore s (s.eaOf i)) :
    exec i s = .refused .addressWrap ∨ exec i s = .refused .storeToText ∨ exec i s = .fault .memNotAdmitted ∨
      exec i s = .refused .pcWrap := by
  rw [exec_of_not_refusesInstr hf]
  refine (checkStore_stops s (s.eaOf i) (s.effectsOf i)).resolve_left fun hn => ?_
  exact h ((storeChecks_iff s _).1 (checkStore_next hn).1)

end Sys2Proof.Machine

namespace Sys2Proof

open Sys2Proof.Machine

/-- Settles O17: one lemma per check, the form's first. -/
theorem checksInOrder : Obligations.ChecksInOrder := by
  refine fun i s => ⟨exec_of_refusesInstr, fun hf => ?_⟩
  rw [exec_of_not_refusesInstr hf]
  exact ⟨checkStore_addressWrap _, fun hfit => ⟨checkStore_storeToText _ hfit, fun ht =>
    ⟨checkStore_memNotAdmitted _ hfit ht, checkStore_pcWrap _ hfit ht⟩⟩⟩

/-- Settles O18: the form's check and the store's are all there are. -/
theorem completesExactlyWhenChecksPass : Obligations.CompletesExactlyWhenChecksPass := fun _ _ => exec_completes_iff

/-- Settles O19: the refusal is the form's check, which only the two update forms have. -/
theorem invalidFormRefusedByPolicyOnly : Obligations.InvalidFormRefusedByPolicyOnly := by
  intro i s
  rw [exec_invalidForm_iff]
  cases i with
  | std => simp [State.refusesInstr]
  | stdu rs ra ds => simp [State.refusesInstr, State.refusesForm_iff, and_comm]
  | stdux rs ra rb => simp [State.refusesInstr, State.refusesForm_iff, and_comm]
  | stdx => simp [State.refusesInstr]

end Sys2Proof
end

section
/-! Each of the four rows: its encoding, its effects where the checks pass, its outcomes otherwise (40_store_doubleword.md R81 to R84). -/

namespace Sys2Proof

open Sys2Proof.Machine

/-- A completed instruction: its own registers, and the store of `x[RS]` at its effective address. -/
theorem exec_stores {i : Instr} {s : State} (hf : s.refusesInstr i = false) (hc : CanStore s (s.eaOf i)) :
    ∃ t, exec i s = .next t ∧ t.ctx = (s.effectsOf i).ctx ∧ Stored s (s.eaOf i) s.ctx.gpr[storedReg i] t := by
  have he := exec_of_pass hf ((storeChecks_iff s _).2 hc)
  exact ⟨_, he, rfl, stored_of_exec he⟩

/-- Settles O11: `std` has no form to refuse; the fields are read by its row. -/
theorem stdStoresDoubleword : Obligations.StdStoresDoubleword := by
  refine ⟨fun w h => ⟨_, _, _, decode_of_rowStd h, rfl, rfl, dispWord_fieldDisp w⟩, ?_⟩
  rintro rs ra ds s ea rfl
  refine ⟨fun hc => ?_, exec_stops_of_not_canStore (i := .std rs ra ds) rfl⟩
  obtain ⟨t, he, hctx, hst⟩ := exec_stores (i := .std rs ra ds) rfl hc
  exact ⟨t, he, hctx.trans (s.storeEffects_ctx _ _), hst⟩

/-- Settles O14: as `std`, with the index register as the offset. -/
theorem stdxStoresDoubleword : Obligations.StdxStoresDoubleword := by
  refine ⟨fun w h => ⟨_, _, _, decode_of_rowStdx h, rfl, rfl, rfl⟩, ?_⟩
  rintro rs ra rb s ea rfl
  refine ⟨fun hc => ?_, exec_stops_of_not_canStore (i := .stdx rs ra rb) rfl⟩
  obtain ⟨t, he, hctx, hst⟩ := exec_stores (i := .stdx rs ra rb) rfl hc
  exact ⟨t, he, hctx.trans (s.storeEffects_ctx _ _), hst⟩

/-- Settles O12: the form's check comes first, then the store and the update. -/
theorem stduStoresAndUpdates : Obligations.StduStoresAndUpdates := by
  refine ⟨fun w h => ⟨_, _, _, decode_of_rowStdu h, rfl, rfl, dispWord_fieldDisp w⟩, ?_⟩
  rintro rs ra ds s ea rfl
  refine ⟨fun h0 hp => exec_of_refusesInstr (State.refusesForm_iff.2 ⟨h0, hp⟩), fun hf hc => ?_,
    fun hf => exec_stops_of_not_canStore (refusesInstr_eq_false_of_mem_gprWrites (i := .stdu rs ra ds) (List.mem_singleton_self ra) hf)⟩
  obtain ⟨t, he, hctx, hst⟩ := exec_stores (refusesInstr_eq_false_of_mem_gprWrites (i := .stdu rs ra ds) (List.mem_singleton_self ra) hf) hc
  exact ⟨t, he, hctx.trans (s.storeUpdateEffects_ctx _ _ _), hst⟩

/-- Settles O13: as `stdu`, with the index register as the offset. -/
theorem stduxStoresAndUpdates : Obligations.StduxStoresAndUpdates := by
  refine ⟨fun w h => ⟨_, _, _, decode_of_rowStdux h, rfl, rfl, rfl⟩, ?_⟩
  rintro rs ra rb s ea rfl
  refine ⟨fun h0 hp => exec_of_refusesInstr (State.refusesForm_iff.2 ⟨h0, hp⟩), fun hf hc => ?_,
    fun hf => exec_stops_of_not_canStore (refusesInstr_eq_false_of_mem_gprWrites (i := .stdux rs ra rb) (List.mem_singleton_self ra) hf)⟩
  obtain ⟨t, he, hctx, hst⟩ := exec_stores (refusesInstr_eq_false_of_mem_gprWrites (i := .stdux rs ra rb) (List.mem_singleton_self ra) hf) hc
  exact ⟨t, he, hctx.trans (s.storeUpdateEffects_ctx _ _ _), hst⟩

end Sys2Proof
end

section
/-! What an instruction reads and writes of the executing agent's own state (10_state.md R20 to R28, 20_memory.md R41). -/

namespace Sys2Proof.Machine

variable {s : State} {i : Instr}

/-- Reading register `q` after a write to `r`. -/
theorem State.readGpr_writeGpr (s : State) (r q : Reg) (v : Word) : (s.writeGpr r v).readGpr q = if q = r then v else s.readGpr q := by
  by_cases h : q = r
  · subst h
    simp [State.readGpr]
  · have hne : (r : Nat) ≠ q := fun he => h (Fin.ext he).symm
    simp [State.readGpr, h, Vector.getElem_set_ne, hne]

theorem State.readGpr_writeGpr_other {r q : Reg} (v : Word) (h : q ≠ r) : (s.writeGpr r v).readGpr q = s.readGpr q := by
  rw [State.readGpr_writeGpr, if_neg h]

/-! The general registers after an instruction. -/

/-- The registers with one value written to each of a list of them. -/
def setAll (g : Vector Word 32) (v : Word) : List Reg → Vector Word 32
  | [] => g
  | r :: rs => (setAll g v rs).set r v

theorem State.effectsOf_gpr (s : State) (i : Instr) : (s.effectsOf i).ctx.gpr = setAll s.ctx.gpr (zext64 (s.eaOf i)) (gprWrites i) := by
  cases i <;> simp only [State.effectsOf, State.storeEffects_ctx, State.storeUpdateEffects_ctx] <;> rfl

theorem setAll_getElem_other (g : Vector Word 32) (v : Word) {rs : List Reg} {r : Reg} (h : r ∉ rs) : (setAll g v rs)[r] = g[r] := by
  induction rs with
  | nil => rfl
  | cons q rs ih =>
    obtain ⟨hq, hrs⟩ := List.ne_and_not_mem_of_not_mem_cons h
    have hne : (q : Nat) ≠ r := fun he => hq (Fin.ext he).symm
    exact (Vector.getElem_set_ne q.isLt r.isLt hne).trans (ih hrs)

/-- A write to a register outside the list comes before or after. -/
theorem setAll_set_other (g : Vector Word 32) (v w : Word) {rs : List Reg} {r : Reg} (h : r ∉ rs) :
    setAll (g.set r w) v rs = (setAll g v rs).set r w := by
  induction rs with
  | nil => rfl
  | cons q rs ih =>
    obtain ⟨hq, hrs⟩ := List.ne_and_not_mem_of_not_mem_cons h
    rw [setAll, setAll, ih hrs]
    exact Vector.set_comm _ _ fun he => hq (Fin.ext he)

/-- A write to a register of the list is overwritten. -/
theorem setAll_set_of_mem (g : Vector Word 32) (v w : Word) {rs : List Reg} {r : Reg} (h : r ∈ rs) :
    setAll (g.set r w) v rs = setAll g v rs := by
  induction rs with
  | nil => cases h
  | cons q rs ih =>
    by_cases hrs : r ∈ rs
    · rw [setAll, setAll, ih hrs]
    · obtain rfl := (List.mem_cons.1 h).resolve_right hrs
      rw [setAll, setAll, setAll_set_other g v w hrs, Vector.set_set]

theorem gprWrites_subset_gprReads (i : Instr) : gprWrites i ⊆ gprReads i := by
  cases i <;> simp [gprWrites, gprReads]

/-! Two states whose checks are alike. -/

theorem mapNext_id (o : Host.Outcome State Fault Refusal) : mapNext id o = o := by cases o <;> rfl

theorem checkStore_congr {s s' t t' : State} {ea : Addr} {f g : State → State} (henv : s'.env = s.env) (hpc : s'.ctx.pc = s.ctx.pc)
    (ht : f t' = g t) : mapNext f (checkStore s' ea t') = mapNext g (checkStore s ea t) := by
  have hfit : s'.nextPcFits = s.nextPcFits := by rw [State.nextPcFits, hpc, State.nextPcFits]
  rw [checkStore, checkStore, henv, hfit]
  split_ifs <;> simp only [mapNext, ht]

theorem State.refusesInstr_congr {s s' : State} (henv : s'.env = s.env) (i : Instr) : s'.refusesInstr i = s.refusesInstr i := by
  cases i <;> simp [State.refusesInstr, State.refusesForm, henv]

/-- Where parameters, pc and effective address are the same, outcomes differ only as the effects do. -/
theorem exec_congr {s s' : State} {f g : State → State} (henv : s'.env = s.env) (hpc : s'.ctx.pc = s.ctx.pc) (hea : s'.eaOf i = s.eaOf i)
    (ht : f (s'.effectsOf i) = g (s.effectsOf i)) : mapNext f (exec i s') = mapNext g (exec i s) := by
  rw [exec_eq, exec_eq, State.refusesInstr_congr henv, hea]
  split
  · rfl
  · exact checkStore_congr henv hpc ht

/-- With another context of which the instruction reads the same, the effects differ in the context alone. -/
theorem State.effectsOf_withCtx {c : Context} (hea : ({ s with ctx := c } : State).eaOf i = s.eaOf i)
    (hv : c.gpr[storedReg i] = s.ctx.gpr[storedReg i]) :
    ({ s with ctx := c } : State).effectsOf i =
      { s.effectsOf i with ctx := { c with gpr := setAll c.gpr (zext64 (s.eaOf i)) (gprWrites i), pc := c.pc + 4#32 } } := by
  have hv' : ({ s with ctx := c } : State).readGpr (storedReg i) = s.readGpr (storedReg i) := hv
  rw [State.effectsOf_eq, State.effectsOf_eq s, State.effectsOf_ctx, State.effectsOf_gpr, hea, hv',
    State.reservationsInvalidate_withCtx, State.memWrite_withCtx]

/-- The same for the outcome: `f` gives the other context to the state after the effects. -/
theorem exec_withCtx {c : Context} {f : State → State} (hpc : c.pc = s.ctx.pc) (hea : ({ s with ctx := c } : State).eaOf i = s.eaOf i)
    (hv : c.gpr[storedReg i] = s.ctx.gpr[storedReg i])
    (hf : f (s.effectsOf i) =
      { s.effectsOf i with ctx := { c with gpr := setAll c.gpr (zext64 (s.eaOf i)) (gprWrites i), pc := c.pc + 4#32 } }) :
    exec i { s with ctx := c } = mapNext f (exec i s) := by
  rw [← mapNext_id (exec i _)]
  exact exec_congr rfl hpc hea ((State.effectsOf_withCtx hea hv).trans hf.symm)

section
variable {r : Reg} {v : Word} (hea : (s.writeGpr r v).eaOf i = s.eaOf i) (hs : storedReg i ≠ r)
include hea hs

theorem exec_writeGpr_of_not_mem_gprWrites (hw : r ∉ gprWrites i) :
    exec i (s.writeGpr r v) = mapNext (fun t => t.writeGpr r v) (exec i s) := by
  refine exec_withCtx (c := { s.ctx with gpr := s.ctx.gpr.set r v }) rfl hea (State.readGpr_writeGpr_other v hs) ?_
  rw [State.writeGpr, State.effectsOf_ctx, State.effectsOf_gpr, setAll_set_other _ _ _ hw]

theorem exec_writeGpr_of_mem_gprWrites (hw : r ∈ gprWrites i) : exec i (s.writeGpr r v) = exec i s := by
  refine (exec_withCtx (c := { s.ctx with gpr := s.ctx.gpr.set r v }) (f := id) rfl hea (State.readGpr_writeGpr_other v hs) ?_).trans (mapNext_id _)
  rw [setAll_set_of_mem _ _ _ hw, ← State.effectsOf_gpr, ← State.effectsOf_ctx]
  rfl

end

/-! The effective address reads registers of the table only, and of them the low 32 bits only. -/

theorem State.baseOrZero_writeGpr_other {r ra : Reg} (v : Word) (h : ra ≠ 0 → ra ≠ r) : (s.writeGpr r v).baseOrZero ra = s.baseOrZero ra := by
  unfold State.baseOrZero
  split
  · rfl
  · exact State.readGpr_writeGpr_other v (h ‹_›)

theorem State.eaOf_writeGpr_other {r : Reg} (v : Word) (h : r ∉ gprReads i) : (s.writeGpr r v).eaOf i = s.eaOf i := by
  cases i with
  | std rs ra ds =>
    have hra : ra ≠ 0 → ra ≠ r := by rintro h0 rfl; simp [gprReads, h0] at h
    simp only [State.eaOf, State.eaStd, State.baseOrZero_writeGpr_other v hra]
  | stdu rs ra ds =>
    have hra : ra ≠ r := by rintro rfl; simp [gprReads] at h
    simp only [State.eaOf, State.eaStdu, State.readGpr_writeGpr_other v hra]
  | stdux rs ra rb =>
    have hra : ra ≠ r := by rintro rfl; simp [gprReads] at h
    have hrb : rb ≠ r := by rintro rfl; simp [gprReads] at h
    simp only [State.eaOf, State.eaStdux, State.readGpr_writeGpr_other v hra, State.readGpr_writeGpr_other v hrb]
  | stdx rs ra rb =>
    have hra : ra ≠ 0 → ra ≠ r := by rintro h0 rfl; simp [gprReads, h0] at h
    have hrb : rb ≠ r := by rintro rfl; by_cases h0 : ra = 0 <;> simp [gprReads, h0] at h
    simp only [State.eaOf, State.eaStdx, State.baseOrZero_writeGpr_other v hra, State.readGpr_writeGpr_other v hrb]

theorem storedReg_mem_gprReads (i : Instr) : storedReg i ∈ gprReads i := by
  cases i with
  | std rs ra ds => by_cases h : ra = 0 <;> simp [storedReg, gprReads, h]
  | stdu => simp [storedReg, gprReads]
  | stdux => simp [storedReg, gprReads]
  | stdx rs ra rb => by_cases h : ra = 0 <;> simp [storedReg, gprReads, h]

theorem effAddr_eq_add (b o : Word) : effAddr b o = trunc32 b + trunc32 o := BitVec.setWidth_add b o (by omega)

theorem State.trunc32_readGpr_writeGpr {r : Reg} {v : Word} (h : trunc32 v = trunc32 (s.readGpr r)) (q : Reg) :
    trunc32 ((s.writeGpr r v).readGpr q) = trunc32 (s.readGpr q) := by
  rw [State.readGpr_writeGpr]
  split
  · subst q
    exact h
  · rfl

theorem State.trunc32_baseOrZero_writeGpr {r : Reg} {v : Word} (h : trunc32 v = trunc32 (s.readGpr r)) (q : Reg) :
    trunc32 ((s.writeGpr r v).baseOrZero q) = trunc32 (s.baseOrZero q) := by
  unfold State.baseOrZero
  split
  · rfl
  · exact State.trunc32_readGpr_writeGpr h q

theorem State.eaOf_writeGpr_of_trunc32 {r : Reg} {v : Word} (h : trunc32 v = trunc32 (s.readGpr r)) (i : Instr) :
    (s.writeGpr r v).eaOf i = s.eaOf i := by
  cases i <;> simp only [State.eaOf, State.eaStd, State.eaStdu, State.eaStdux, State.eaStdx, effAddr_eq_add,
    State.trunc32_readGpr_writeGpr h, State.trunc32_baseOrZero_writeGpr h]

theorem trunc32_zext64 (a : Addr) : trunc32 (zext64 a) = a := by
  simp [trunc32, zext64]

theorem trunc32_dispWord (ds : Int) : trunc32 (dispWord ds) = BitVec.ofInt 32 ds := by
  apply BitVec.eq_of_toNat_eq
  simp only [trunc32, dispWord, BitVec.truncate, BitVec.toNat_setWidth, BitVec.toNat_ofInt]
  omega

/-! The two memory effects do not look at what memory holds. -/

theorem State.reservationsInvalidate_withMem (s : State) (m : Memory) (ea : Addr) :
    ({ s with mem := m } : State).reservationsInvalidate ea = { s.reservationsInvalidate ea with mem := m } := by
  cases h : (s.env.resvTracking && !s.resv.isEmpty) <;> simp [State.reservationsInvalidate, h]

theorem State.memWrite_withMem_clear (s : State) (m : Memory) (ea : Addr) (v : Word) :
    ({ ({ s with mem := m } : State).memWrite ea v with mem := [] } : State) = { s.memWrite ea v with mem := [] } := by
  cases h : (s.parked.isEmpty && s.pending.isEmpty) <;> simp [State.memWrite, State.alone, h]

end Sys2Proof.Machine

namespace Sys2Proof

open Sys2Proof.Machine

/-- Settles O21: a read after a write. -/
theorem registersHoldWhatWasWritten : Obligations.RegistersHoldWhatWasWritten := State.readGpr_writeGpr

/-- Settles O22: neither the address nor the stored value reads the register, and the update writes another. -/
theorem registersReadAndWritten : Obligations.RegistersReadAndWritten := by
  refine ⟨fun i s r v h => ?_, fun i s t r he hr => ?_⟩
  · have hs : storedReg i ≠ r := by
      rintro rfl
      exact h (storedReg_mem_gprReads i)
    exact exec_writeGpr_of_not_mem_gprWrites (State.eaOf_writeGpr_other v h) hs (mt (@gprWrites_subset_gprReads i r) h)
  · obtain ⟨-, -, rfl⟩ := exec_next he
    rw [State.effectsOf_gpr]
    exact setAll_getElem_other _ _ hr

/-- Settles O23: the context with other contents there reads the same and keeps them. -/
theorem namedOnlyRegistersUntouched : Obligations.NamedOnlyRegistersUntouched := by
  refine fun i s cr xer fpr vr => ⟨?_, fun t he => ?_⟩
  · refine exec_withCtx (c := { s.ctx with cr := cr, xer := xer, fpr := fpr, vr := vr }) rfl ?_ rfl ?_
    · cases i <;> rfl
    · rw [State.withNamedOnly, State.effectsOf_ctx, State.effectsOf_gpr]
  · rw [ctx_of_exec he]
    exact ⟨rfl, rfl, rfl, rfl⟩

/-- Settles O24: the effects write memory or the waiting stores, and the write of memory is cleared on both sides. -/
theorem memoryIsNeverRead : Obligations.MemoryIsNeverRead := by
  intro i s m
  have hea : ({ s with mem := m } : State).eaOf i = s.eaOf i := by cases i <;> rfl
  refine exec_congr rfl rfl hea ?_
  have hctx : (({ s with mem := m } : State).effectsOf i).ctx = (s.effectsOf i).ctx := by
    rw [State.effectsOf_ctx, State.effectsOf_ctx s, State.effectsOf_gpr, State.effectsOf_gpr s, hea]
  rw [State.effectsOf_eq, State.effectsOf_eq s, hctx, hea, State.reservationsInvalidate_withMem]
  exact congrArg (fun u : State => { u with ctx := (s.effectsOf i).ctx })
    (State.memWrite_withMem_clear (s.reservationsInvalidate (s.eaOf i)) m (s.eaOf i) (s.readGpr (storedReg i)))

/-- Settles O25: the address keeps the low 32 bits of each operand; an update form then overwrites the base. -/
theorem upperAddressBitsIgnored : Obligations.UpperAddressBitsIgnored := by
  intro s rs ra rb ds v
  refine ⟨fun h hs => ?_, fun h hs hab => ?_⟩
  · have hea := State.eaOf_writeGpr_of_trunc32 (s := s) h
    exact ⟨exec_writeGpr_of_not_mem_gprWrites (hea _) hs.symm List.not_mem_nil,
      exec_writeGpr_of_mem_gprWrites (hea _) hs.symm (List.mem_singleton_self ra),
      exec_writeGpr_of_not_mem_gprWrites (hea _) hs.symm List.not_mem_nil,
      exec_writeGpr_of_mem_gprWrites (hea _) hs.symm (List.mem_singleton_self ra)⟩
  · have hea := State.eaOf_writeGpr_of_trunc32 (s := s) h
    exact ⟨exec_writeGpr_of_not_mem_gprWrites (hea _) hs.symm List.not_mem_nil,
      exec_writeGpr_of_not_mem_gprWrites (hea _) hs.symm (mt List.mem_singleton.1 hab)⟩

/-- Settles O26: RA holds the zero-extended address, of which the next sum keeps all 32 bits. -/
theorem updatedBaseIsNextBase : Obligations.UpdatedBaseIsNextBase := by
  intro s t i rs ra rb ds h0 hi he ds'
  have hmem : ra ∈ gprWrites i := by rcases hi with rfl | rfl <;> exact List.mem_singleton_self ra
  have hbase : t.readGpr ra = zext64 (s.eaOf i) := gpr_of_exec_of_mem_gprWrites he hmem
  simp [State.eaStd, State.eaStdu, State.baseOrZero, h0, hbase, effAddr_eq_add, trunc32_zext64, trunc32_dispWord]

/-- Settles O27: of an instruction's effects only `ReservationsInvalidate` touches the table and the draws. -/
theorem reservationsAfterStore : Obligations.ReservationsAfterStore := by
  intro i s t he
  have hresv := (stored_of_exec he).resv
  obtain ⟨-, -, rfl⟩ := exec_next he
  refine ⟨hresv, ?_⟩
  rw [State.effectsOf_eq]
  simp only [State.memWrite_resv, State.memWrite_draws]
  refine ⟨s.reservationsInvalidate_sublist _, ?_, ?_⟩
  · rintro (h | h) <;> simp [State.reservationsInvalidate, h]
  · intro h hne
    simp [State.reservationsInvalidate, h, hne]

/-- Settles O28: the waiting clause of what a completed store leaves. -/
theorem severalAgentsStoreWaits : Obligations.SeveralAgentsStoreWaits := fun _ _ _ hs he => (stored_of_exec he).waits hs

/-- Settles O29: the one-agent clause of what a completed store leaves; with nothing waiting every view is memory. -/
theorem oneAgentStoresInProgramOrder : Obligations.OneAgentStoresInProgramOrder := by
  intro i s t hs he
  have hst := stored_of_exec he
  obtain ⟨hpend, hbytes, -⟩ := hst.lone hs
  have hpark : s.parked = [] := by simpa [State.alone] using (Bool.and_eq_true_iff.1 hs).1
  refine ⟨by simp [State.alone, hst.parked, hpark, hpend], fun ag a => ?_, hbytes⟩
  rw [State.seenBy_eq, hpend, lastPending, Option.none_or]

end Sys2Proof
end

section
/-! Memories that read alike (10_state.md R28, 20_memory.md R48; log 7). -/

namespace Sys2Proof.Machine

/-- In canonical form an address is listed once, so what is listed is what is read. -/
theorem Memory.mem_iff_read {m : Memory} (h : Memory.wf m) {a : Nat} {b : Byte} : (a, b) ∈ m ↔ Memory.read m a = some b := by
  refine ⟨fun hm => ?_, Memory.mem_of_read⟩
  induction m with
  | nil => cases hm
  | cons c m ih =>
    obtain ⟨hc, hrest⟩ := List.pairwise_cons.1 h
    rw [Memory.read_cons]
    rcases List.mem_cons.1 hm with rfl | hm
    · rw [if_pos rfl]
    · have hlt : c.1 < a := hc _ hm
      rw [if_neg (by omega), ih hrest hm]

/-- Canonical or not, what is listed is read as something. -/
theorem Memory.read_ne_none_of_mem {m : Memory} {c : Host.Cell} (h : c ∈ m) : Memory.read m c.1 ≠ none := by
  induction m with
  | nil => cases h
  | cons d m ih =>
    rw [Memory.read_cons]
    split
    · simp
    · refine ih ((List.mem_cons.1 h).resolve_left ?_)
      rintro rfl
      contradiction

theorem Memory.ext_of_read {m m' : Memory} (h : Memory.wf m) (h' : Memory.wf m') (hr : ∀ a, Memory.read m a = Memory.read m' a) : m = m' := by
  have hanti : Std.Antisymm (fun c d : Host.Cell => c.1 < d.1) := ⟨fun _ _ h1 h2 => absurd h1 h2.asymm⟩
  have hirr : Std.Irrefl (fun c d : Host.Cell => c.1 < d.1) := ⟨fun c => Nat.lt_irrefl c.1⟩
  refine h.eq_of_mem_iff h' fun c => ?_
  rw [Memory.mem_iff_read h, Memory.mem_iff_read h', hr]

theorem Memory.writeAll_writeAll_self {m : Memory} (h : Memory.wf m) (cs : List Host.Cell) :
    Memory.writeAll (Memory.writeAll m cs) cs = Memory.writeAll m cs := by
  refine Memory.ext_of_read (Memory.writeAll_wf (Memory.writeAll_wf h cs) cs) (Memory.writeAll_wf h cs) fun a => ?_
  simp only [Memory.read_writeAll]
  cases Memory.read cs a <;> rfl

/-- Writes of bytes at different addresses come in either order. -/
theorem Memory.writeAll_comm {m : Memory} (h : Memory.wf m) {cs ds : List Host.Cell}
    (hd : ∀ a, Memory.read cs a = none ∨ Memory.read ds a = none) :
    Memory.writeAll (Memory.writeAll m cs) ds = Memory.writeAll (Memory.writeAll m ds) cs := by
  refine Memory.ext_of_read (Memory.writeAll_wf (Memory.writeAll_wf h cs) ds) (Memory.writeAll_wf (Memory.writeAll_wf h ds) cs) fun a => ?_
  simp only [Memory.read_writeAll]
  rcases hd a with ha | ha <;> simp [ha]

end Sys2Proof.Machine

namespace Sys2Proof

open Sys2Proof.Machine

/-- Settles O32: canonical memories with the same reads list the same cells in the same order. -/
theorem equalReadsEqualMemories : Obligations.EqualReadsEqualMemories := fun _ _ => Memory.ext_of_read

/-- Settles O33: on one agent a store is in memory at once, where a second write of the same bytes changes no read. -/
theorem storingTwiceIsStoringOnce : Obligations.StoringTwiceIsStoringOnce := by
  intro s ea v hwf hs
  have hs' : ({ s with mem := Memory.writeAll s.mem (storeCells ea v) } : State).alone = true := hs
  rw [State.memWrite_of_alone s v ea hs, State.memWrite_of_alone _ v ea hs']
  simp only [Memory.writeAll_writeAll_self hwf]

/-- Settles O34: the last byte is 7 further, so it is in the next line exactly above offset 120. -/
theorem straddlesLineAbove120 : Obligations.StraddlesLineAbove120 := by
  intro ea
  unfold Config.lineAccesses Config.cacheLine Config.accessBytes
  split <;> omega

end Sys2Proof
end

section
/-! What a settle turn does (20_memory.md R47, R52; log 12). -/

namespace Sys2Proof.Machine

theorem PendingStore.byteFor_of_agent {p : PendingStore} {ag : Nat} (h : p.agent = ag) (a : Nat) : p.byteFor ag a = Memory.read p.cells a :=
  if_pos h

theorem PendingStore.byteFor_eq_none_iff {p : PendingStore} {ag a : Nat} :
    p.byteFor ag a = none ↔ (p.agent = ag → Memory.read p.cells a = none) := by
  simp [PendingStore.byteFor]

theorem PendingStore.agent_of_byteFor {p : PendingStore} {ag a : Nat} (h : (p.byteFor ag a).isSome = true) : p.agent = ag := by
  by_contra hne
  simp [PendingStore.byteFor, hne] at h

/-- When bytes may become visible before an agent's older stores, under each value of `MEMORY_MODEL`. -/
theorem Env.mayOvertake_iff {e : Env} {ag : Nat} {xs : List PendingStore} {cells : List Host.Cell} :
    e.mayOvertake ag xs cells = true ↔
      (e.memoryModel = .programOrder → ∀ q ∈ xs, q.agent ≠ ag) ∧
        (e.memoryModel = .anyOrder → ∀ q ∈ xs, ∀ c ∈ cells, q.byteFor ag c.1 = none) := by
  unfold Env.mayOvertake
  cases e.memoryModel <;> simp

/-- Whichever the memory model, no older store of the agent has a byte where one becomes visible. -/
theorem Env.byteFor_eq_none_of_mayOvertake {e : Env} {ag x : Nat} {xs : List PendingStore} {cells : List Host.Cell}
    (h : e.mayOvertake ag xs cells = true) (hx : Memory.read cells x ≠ none) : ∀ q ∈ xs, q.byteFor ag x = none := by
  intro q hq
  obtain ⟨hprog, hany⟩ := Env.mayOvertake_iff.1 h
  cases hm : e.memoryModel with
  | programOrder => exact PendingStore.byteFor_eq_none_iff.2 fun ha => absurd ha (hprog hm q hq)
  | anyOrder =>
    obtain ⟨b, hb⟩ := Option.ne_none_iff_exists'.1 hx
    exact hany hm q hq _ (Memory.mem_of_read hb)

theorem Env.settling_whole {e : Env} (h : e.storeAtomicity = .whole) (a : Nat) (cells : List Host.Cell) : e.settling a cells = cells := by
  simp [Env.settling, h]

theorem Env.settling_bytes {e : Env} (h : e.storeAtomicity = .bytes) (a : Nat) (cells : List Host.Cell) :
    e.settling a cells = cells.filter (fun c => c.1 == a) := by
  simp [Env.settling, h]

theorem Env.leftWaiting_whole {e : Env} (h : e.storeAtomicity = .whole) (a : Nat) (p : PendingStore) : e.leftWaiting a p = [] := by
  simp [Env.leftWaiting, h]

theorem Env.leftWaiting_bytes {e : Env} (h : e.storeAtomicity = .bytes) (a : Nat) (p : PendingStore) :
    e.leftWaiting a p = if ∀ c ∈ p.cells, c.1 = a then [] else [⟨p.agent, p.cells.filter (fun c => c.1 != a)⟩] := by
  have hall : p.cells.filter (fun c => c.1 != a) = [] ↔ ∀ c ∈ p.cells, c.1 = a := by simp
  simp only [Env.leftWaiting, h, ← hall]
  cases p.cells.filter (fun c => c.1 != a) <;> rfl

/-- A settle turn of an agent with no waiting byte at the address. -/
theorem State.settle_of_none {s : State} {ag a : Nat} (h : ∀ p ∈ s.pending, p.byteFor ag a = none) : s.settle ag a = s := by
  rw [State.settle, splitPending_none.2 h]

/-- A settle turn, its oldest store found. -/
theorem State.settle_of_split {s : State} {ag a : Nat} {xs ys : List PendingStore} {p : PendingStore} (h : s.pending = xs ++ p :: ys)
    (hp : (p.byteFor ag a).isSome = true) (hx : ∀ q ∈ xs, q.byteFor ag a = none) :
    s.settle ag a =
      if s.env.mayOvertake ag xs (s.env.settling a p.cells) then
        { s with mem := Memory.writeAll s.mem (s.env.settling a p.cells), pending := xs ++ (s.env.leftWaiting a p ++ ys) }
      else s := by
  rw [State.settle, h, splitPending_append hp hx]

theorem step_settle {s : State} {ag a : Nat} {ts : List Turn} (h : s.turns = .settle ag a :: ts) :
    step s = .next (({ s with turns := ts } : State).settle ag a) := by
  simp [step, State.turn_cons h, State.popTurn, h]

end Sys2Proof.Machine

namespace Sys2Proof

open Sys2Proof.Machine

/-- Settles O30: a byte that leaves the waiting stores is in memory, and no older waiting store of the agent hides it there. -/
theorem settlingKeepsOwnView : Obligations.SettlingKeepsOwnView := by
  intro s ag a x
  rcases s.settle_cases ag a with e | ⟨xs, p, ys, hps, hp, -, hov, e⟩
  · rw [e]
  obtain rfl := PendingStore.agent_of_byteFor hp
  have hbyte : p.byteFor p.agent x = (lastPending p.agent x (s.env.leftWaiting a p)).or (Memory.read (s.env.settling a p.cells) x) := by
    rw [PendingStore.byteFor_of_agent rfl, Env.settling_leftWaiting]
  have hold : Memory.read (s.env.settling a p.cells) x ≠ none → lastPending p.agent x xs = none := fun hx =>
    lastPending_eq_none (Env.byteFor_eq_none_of_mayOvertake hov hx)
  rw [e, State.seenBy_eq, State.seenBy_eq, hps]
  simp only [lastPending_append, lastPending_cons, Memory.read_writeAll, hbyte]
  cases hr : Memory.read (s.env.settling a p.cells) x with
  | none => simp
  | some b => simp [hold (by simp [hr])]

/-- Settles O8: the turn finds the agent's oldest store with a byte there; the memory model decides whether it waits, the atomicity what moves. -/
theorem settleTurnShowsOldestByte : Obligations.SettleTurnShowsOldestByte := by
  intro s ag a ts ht
  rw [step_settle ht]
  refine ⟨fun h => ?_, fun xs ys cells hps hread hx => ?_⟩
  · rw [State.settle_of_none (s := { s with turns := ts }) fun p hp => PendingStore.byteFor_eq_none_iff.2 (h p hp)]
  have hp : ((⟨ag, cells⟩ : PendingStore).byteFor ag a).isSome = true := by
    rwa [PendingStore.byteFor_of_agent rfl, Option.isSome_iff_ne_none]
  have hold : ∀ q ∈ xs, q.byteFor ag a = none := fun q hq => PendingStore.byteFor_eq_none_iff.2 (hx q hq)
  rw [State.settle_of_split (s := { s with turns := ts }) hps hp hold]
  refine ⟨fun hm ⟨q, hq, hqa⟩ => ?_, fun hw ⟨q, hq, hqa, c, hc, hqc⟩ => ?_, fun hprog => ⟨fun hw hfree => ?_, fun hb => ?_⟩⟩
  · rw [if_neg fun hov => (Env.mayOvertake_iff.1 hov).1 hm q hq hqa]
  · have hov : ¬ s.env.mayOvertake ag xs (s.env.settling a cells) = true := fun hov => by
      rw [Env.settling_whole hw] at hov
      have hnone := Env.byteFor_eq_none_of_mayOvertake hov (Memory.read_ne_none_of_mem hc) q hq
      exact hqc (PendingStore.byteFor_eq_none_iff.1 hnone hqa)
    rw [if_neg hov]
  · have hov : s.env.mayOvertake ag xs (s.env.settling a cells) = true := Env.mayOvertake_iff.2 ⟨hprog, fun _ q hq c hc =>
      PendingStore.byteFor_eq_none_iff.2 fun hqa => hfree q hq hqa c (Env.mem_settling hc)⟩
    rw [if_pos hov, Env.settling_whole hw, Env.leftWaiting_whole hw]
    exact ⟨_, rfl, Memory.read_writeAll s.mem cells⟩
  · have hov : s.env.mayOvertake ag xs (s.env.settling a cells) = true := Env.mayOvertake_iff.2 ⟨hprog, fun _ q hq c hc => by
      rw [Env.settling_bytes hb] at hc
      obtain rfl : c.1 = a := by simpa using (List.mem_filter.1 hc).2
      exact hold q hq⟩
    rw [if_pos hov, Env.settling_bytes hb, Env.leftWaiting_bytes hb]
    refine ⟨_, rfl, fun x => ?_⟩
    rw [Memory.read_writeAll, Memory.read_filter_eq]
    split
    · obtain ⟨b, hbyte⟩ := Option.ne_none_iff_exists'.1 hread
      rw [hbyte, Option.some_or]
    · rw [Option.none_or]

end Sys2Proof
end

section
/-! Byte-wise stores in any order: one waiting byte leaves the list, whatever else waits (20_memory.md R47, R52; D11, D12; log 12). -/

namespace Sys2Proof.Machine

/-- A waiting store without its bytes at one address. -/
def PendingStore.dropByte (a : Nat) (p : PendingStore) : PendingStore := ⟨p.agent, p.cells.filter (fun c => c.1 != a)⟩

/-- A waiting store as a list, none where nothing of it waits. -/
def PendingStore.keep (p : PendingStore) : List PendingStore := if p.cells = [] then [] else [p]

/-- The waiting stores without the oldest byte of an agent at an address. -/
def dropOldest (ag a : Nat) : List PendingStore → List PendingStore
  | [] => []
  | p :: ps => if (p.byteFor ag a).isSome then (p.dropByte a).keep ++ ps else p :: dropOldest ag a ps

/-- The cells of the oldest byte of an agent at an address. -/
def oldestCells (ag a : Nat) : List PendingStore → List Host.Cell
  | [] => []
  | p :: ps => if (p.byteFor ag a).isSome then p.cells.filter (fun c => c.1 == a) else oldestCells ag a ps

theorem Env.leftWaiting_eq_keep {e : Env} (h : e.storeAtomicity = .bytes) (a : Nat) (p : PendingStore) :
    e.leftWaiting a p = (p.dropByte a).keep := by
  have hall : p.cells.filter (fun c => c.1 != a) = [] ↔ ∀ c ∈ p.cells, c.1 = a := by simp
  simp only [Env.leftWaiting_bytes h, PendingStore.keep, PendingStore.dropByte, hall]

theorem dropOldest_append {ag a : Nat} {xs : List PendingStore} (hx : ∀ q ∈ xs, q.byteFor ag a = none) (ps : List PendingStore) :
    dropOldest ag a (xs ++ ps) = xs ++ dropOldest ag a ps := by
  induction xs with
  | nil => rfl
  | cons q xs ih =>
    obtain ⟨hq, hxs⟩ := List.forall_mem_cons.1 hx
    simp [dropOldest, hq, ih hxs]

theorem oldestCells_append {ag a : Nat} {xs : List PendingStore} (hx : ∀ q ∈ xs, q.byteFor ag a = none) (ps : List PendingStore) :
    oldestCells ag a (xs ++ ps) = oldestCells ag a ps := by
  induction xs with
  | nil => rfl
  | cons q xs ih =>
    obtain ⟨hq, hxs⟩ := List.forall_mem_cons.1 hx
    simp [oldestCells, hq, ih hxs]

/-- With byte-wise stores in any order a settle turn moves the oldest byte, if one waits. -/
theorem State.settle_bytes_anyOrder {s : State} (hb : s.env.storeAtomicity = .bytes) (hm : s.env.memoryModel = .anyOrder) (ag a : Nat) :
    s.settle ag a = { s with mem := Memory.writeAll s.mem (oldestCells ag a s.pending), pending := dropOldest ag a s.pending } := by
  cases hsp : splitPending ag a s.pending with
  | none =>
    have hx := splitPending_none.1 hsp
    have hdrop : dropOldest ag a s.pending = s.pending := by simpa [dropOldest] using dropOldest_append hx []
    have hcells : oldestCells ag a s.pending = [] := by simpa [oldestCells] using oldestCells_append hx []
    rw [State.settle_of_none hx, hdrop, hcells, Memory.writeAll_nil]
  | some found =>
    obtain ⟨xs, p, ys⟩ := found
    obtain ⟨hps, hp, hx⟩ := splitPending_some hsp
    have hov : s.env.mayOvertake ag xs (p.cells.filter (fun c => c.1 == a)) = true := by
      refine Env.mayOvertake_iff.2 ⟨fun h => absurd (hm.symm.trans h) (by decide), fun _ q hq c hc => ?_⟩
      obtain rfl : c.1 = a := by simpa using (List.mem_filter.1 hc).2
      exact hx q hq
    rw [State.settle_of_split hps hp hx, Env.settling_bytes hb, if_pos hov, Env.leftWaiting_eq_keep hb, hps, dropOldest_append hx,
      oldestCells_append hx, dropOldest, oldestCells, if_pos hp, if_pos hp]

/-! Bytes of different addresses leave independently. -/

section
variable {ag ag' a a' x : Nat}

theorem PendingStore.byteFor_dropByte (h : a' ≠ a) (p : PendingStore) : (p.dropByte a).byteFor ag' a' = p.byteFor ag' a' := by
  simp [PendingStore.byteFor, PendingStore.dropByte, Memory.read_filter_ne, h]

theorem PendingStore.dropByte_comm (p : PendingStore) : (p.dropByte a).dropByte a' = (p.dropByte a').dropByte a := by
  simp only [PendingStore.dropByte, List.filter_filter, Bool.and_comm]

theorem PendingStore.dropByte_filter (h : a ≠ a') (p : PendingStore) :
    (p.dropByte a).cells.filter (fun c => c.1 == a') = p.cells.filter (fun c => c.1 == a') := by
  rw [PendingStore.dropByte, List.filter_filter]
  refine List.filter_congr fun c _ => ?_
  by_cases hc : c.1 = a' <;> simp [hc, h.symm]

/-- A store of which nothing waits may be listed or not. -/
theorem dropOldest_keep_append (p : PendingStore) (ps : List PendingStore) : dropOldest ag a (p.keep ++ ps) =
    if (p.byteFor ag a).isSome then (p.dropByte a).keep ++ ps else p.keep ++ dropOldest ag a ps := by
  unfold PendingStore.keep
  split
  · rename_i hp
    simp [PendingStore.byteFor, hp]
  · rfl

theorem dropOldest_comm (h : a ≠ a') (ps : List PendingStore) :
    dropOldest ag' a' (dropOldest ag a ps) = dropOldest ag a (dropOldest ag' a' ps) := by
  induction ps with
  | nil => rfl
  | cons p ps ih =>
    have h1 := p.byteFor_dropByte (ag' := ag) h
    have h2 := p.byteFor_dropByte (ag' := ag') h.symm
    by_cases hp : (p.byteFor ag a).isSome = true <;> by_cases hp' : (p.byteFor ag' a').isSome = true
    · simp [dropOldest, dropOldest_keep_append, hp, hp', h1, h2, p.dropByte_comm (a := a)]
    · simp [dropOldest, dropOldest_keep_append, hp, hp', h2]
    · simp [dropOldest, dropOldest_keep_append, hp, hp', h1]
    · simp [dropOldest, hp, hp', ih]

theorem oldestCells_keep_append (p : PendingStore) (ps : List PendingStore) : oldestCells ag a (p.keep ++ ps) =
    if (p.byteFor ag a).isSome then p.cells.filter (fun c => c.1 == a) else oldestCells ag a ps := by
  unfold PendingStore.keep
  split
  · rename_i hp
    simp [PendingStore.byteFor, hp]
  · rfl

theorem oldestCells_dropOldest (h : a ≠ a') (ps : List PendingStore) : oldestCells ag' a' (dropOldest ag a ps) = oldestCells ag' a' ps := by
  induction ps with
  | nil => rfl
  | cons p ps ih =>
    have h2 := p.byteFor_dropByte (ag' := ag') h.symm
    by_cases hp : (p.byteFor ag a).isSome = true
    · rw [dropOldest, if_pos hp, oldestCells_keep_append, h2, PendingStore.dropByte_filter h, oldestCells]
    · rw [dropOldest, if_neg hp, oldestCells, ih, oldestCells]

theorem read_oldestCells_other (h : x ≠ a) (ps : List PendingStore) : Memory.read (oldestCells ag a ps) x = none := by
  induction ps with
  | nil => rfl
  | cons p ps ih =>
    unfold oldestCells
    split
    · rw [Memory.read_filter_eq, if_neg h]
    · exact ih

end

end Sys2Proof.Machine

namespace Sys2Proof

open Sys2Proof.Machine

/-- Settles O31: the two bytes leave the waiting stores independently, and memory takes them in either order. -/
theorem settlingDifferentAddressesCommutes : Obligations.SettlingDifferentAddressesCommutes := by
  intro s ag ag' a a' hb hm hwf hne
  have hset (u : State) (hu : u.env = s.env) (ag a : Nat) := State.settle_bytes_anyOrder (s := u) (hu ▸ hb) (hu ▸ hm) ag a
  simp only [hset]
  have hdisj : ∀ x, Memory.read (oldestCells ag a s.pending) x = none ∨ Memory.read (oldestCells ag' a' s.pending) x = none := fun x => by
    by_cases hx : x = a
    · exact .inr (read_oldestCells_other (hx ▸ hne) _)
    · exact .inl (read_oldestCells_other hx _)
  simp only [oldestCells_dropOldest hne, oldestCells_dropOldest hne.symm, dropOldest_comm hne, Memory.writeAll_comm hwf hdisj]

end Sys2Proof
end

section
/-! The fetch, and the step of an agent whose turn it is (20_memory.md R57, 60_exceptions.md R105, R107). -/

namespace Sys2Proof.Machine

variable {s : State}

theorem Env.fetchWord_of_bytes {e : Env} {a : Nat} {b0 b1 b2 b3 : Byte} (h0 : Memory.read e.text a = some b0)
    (h1 : Memory.read e.text (a + 1) = some b1) (h2 : Memory.read e.text (a + 2) = some b2) (h3 : Memory.read e.text (a + 3) = some b3) :
    e.fetchWord a = some (wordOfBytes b0 b1 b2 b3) := by
  simp only [Env.fetchWord, h0, h1, h2, h3]

theorem Env.fetchWord_eq_none {e : Env} {a k : Nat} (hk : k < 4) (h : Memory.read e.text (a + k) = none) : e.fetchWord a = none := by
  unfold Env.fetchWord
  split
  · rename_i h0 h1 h2 h3
    obtain rfl | rfl | rfl | rfl : k = 0 ∨ k = 1 ∨ k = 2 ∨ k = 3 := by omega
    all_goals simp_all
  · rfl

/-! The fetch at each of its checks, and past them. -/

theorem State.fetchInstr_misaligned (h : s.ctx.pc.toNat % 4 ≠ 0) : s.fetchInstr = .error .pcMisaligned := if_pos h

section
variable (h : s.ctx.pc.toNat % 4 = 0)
include h

theorem State.fetchInstr_noText (hw : s.env.fetchWord s.ctx.pc.toNat = none) : s.fetchInstr = .error .fetchNotAdmitted := by
  simp [State.fetchInstr, Config.insnBytes, h, hw]

theorem State.fetchInstr_undecoded {w : InsnWord} (hw : s.env.fetchWord s.ctx.pc.toNat = some w) (hd : decode w = .undecoded) :
    s.fetchInstr = .error .undecodedWord := by
  simp [State.fetchInstr, Config.insnBytes, h, hw, hd]

theorem State.fetchInstr_decoded {w : InsnWord} {i : Instr} (hw : s.env.fetchWord s.ctx.pc.toNat = some w) (hd : decode w = .instr i) :
    s.fetchInstr = .ok i := by
  simp [State.fetchInstr, Config.insnBytes, h, hw, hd]

end

theorem agentStep_of_fetch_error {r : Refusal} (h : s.fetchInstr = .error r) : agentStep s = .refused r := by
  simp [agentStep, h]

/-! The machine's outcome of an agent's turn. -/

theorem step_of_runner {ag r : Nat} (ht : s.turn = .run ag) (hr : s.runner ag = some r) :
    step s = (s.popTurn.switchTo r).afterAgent (agentStep (s.popTurn.switchTo r)) := by
  simp [step, ht, hr]

theorem step_of_none_running {ag : Nat} (ht : s.turn = .run ag) (h : ∀ c ∈ s.contexts, s.env.running c = false) : step s = s.verdict := by
  simp [step, ht, State.runner_eq_none ag h]

theorem State.endRun_of_none_parked (why : Stop) (h : ∀ p ∈ s.parked, s.env.running p.ctx = false) :
    s.endRun why = ({ s with ctx := { s.ctx with stop := some why } } : State).verdict := by
  refine (s.endRun_cases why).elim (fun ⟨hsome, _⟩ => ?_) And.right
  obtain ⟨c, hc, hr⟩ := List.any_eq_true.1 hsome
  rcases State.mem_contexts.1 hc with rfl | ⟨p, hp, rfl⟩
  · simp [Env.running] at hr
  · exact absurd hr (by simp [h p hp])

/-- What an agent's outcome is to the machine where another agent can go on. -/
theorem State.afterAgent_of_parked {p : Parked} (hp : p ∈ s.parked) (hr : s.env.running p.ctx = true) :
    (∀ f, s.afterAgent (.fault f) = .next { s with ctx := { s.ctx with stop := some (.fault f) } }) ∧
      ∀ r, s.afterAgent (.refused r) = .next { s with ctx := { s.ctx with stop := some (.refuse r) } } :=
  ⟨fun _ => State.endRun_of_parked _ hp hr, fun _ => State.endRun_of_parked _ hp hr⟩

/-! The verdict, read back. -/

theorem Context.endRefusal_eq_some {c : Context} {r : Refusal} : c.endRefusal = some r ↔ c.stop = some (.refuse r) := by
  unfold Context.endRefusal
  split <;> simp_all

theorem State.verdict_refused {r : Refusal} (h : s.verdict = .refused r) : r = .runEnded ∨ ∃ c ∈ s.contexts, c.stop = some (.refuse r) := by
  unfold State.verdict at h
  split at h
  · cases h
  split at h
  · rename_i q hq
    cases h
    obtain ⟨c, hc, hcr⟩ := List.exists_of_findSome?_eq_some hq
    exact .inr ⟨c, hc, Context.endRefusal_eq_some.1 hcr⟩
  · cases h
    exact .inl rfl

/-- Where an agent's run ended and none in a fault, a refusal one ended in is the verdict. -/
theorem State.verdict_of_stopped (hf : ∀ c ∈ s.contexts, ∀ f, c.stop ≠ some (.fault f)) (hs : ∃ c ∈ s.contexts, c.stop ≠ none) :
    ∃ c ∈ s.contexts, ∃ r, c.stop = some (.refuse r) ∧ s.verdict = .refused r := by
  obtain ⟨c, hc, hstop⟩ := hs
  cases hr : s.contexts.findSome? Context.endRefusal with
  | some r =>
    obtain ⟨d, hd, hdr⟩ := List.exists_of_findSome?_eq_some hr
    exact ⟨d, hd, r, Context.endRefusal_eq_some.1 hdr, State.verdict_of_refusal hf hr⟩
  | none =>
    have hnone := List.findSome?_eq_none_iff.1 hr c hc
    cases hcs : c.stop with
    | none => exact absurd hcs hstop
    | some why =>
      cases why with
      | fault f => exact absurd hcs (hf c hc f)
      | refuse q => rw [Context.endRefusal_eq_some.2 hcs] at hnone; cases hnone

/-- A final state: a settle turn goes on, a turn of an agent ends the run. -/
theorem step_of_final (h : s.Final) : (∃ u, step s = .next u) ∨ step s = .refused .runEnded := by
  obtain ⟨hnone, hend⟩ := h
  cases hturn : s.turn with
  | settle ag a => exact .inl ⟨s.popTurn.settle ag a, by simp [step, hturn]⟩
  | run ag =>
    rw [step_of_none_running hturn fun c hc => Env.running_eq_false.2 (.inr (hend c hc)), State.verdict_of_none_stopped hnone]
    exact .inr rfl

end Sys2Proof.Machine

namespace Sys2Proof

open Sys2Proof.Machine

/-- Settles O1: the four bytes are the word the fetch assembles; what becomes of a stop depends on the other agents alone. -/
theorem stepRunsDecodedInstruction : Obligations.StepRunsDecodedInstruction := by
  intro s b0 b1 b2 b3 i hturn hstop hend hal h0 h1 h2 h3 hd
  have hstep : step s = s.afterAgent (exec i s) := by
    rw [step_of_no_turn hturn (Env.running_iff.2 ⟨hstop, hend⟩),
      agentStep_of_fetch (State.fetchInstr_decoded hal (Env.fetchWord_of_bytes h0 h1 h2 h3) hd)]
  rw [hstep]
  refine ⟨fun t he => by rw [he]; rfl, fun hp => State.afterAgent_of_no_parked hp _, ?_⟩
  rintro ⟨p, hp, hr⟩
  obtain ⟨hfault, hrefused⟩ := State.afterAgent_of_parked hp (Env.running_iff.2 hr)
  exact ⟨fun f he => by rw [he, hfault], fun r he => by rw [he, hrefused]⟩

/-- Settles O2: the three checks of the fetch, and the one agent's step as the machine's. -/
theorem stopsBeforeExecution : Obligations.StopsBeforeExecution := by
  refine fun s => ⟨fun h => agentStep_of_fetch_error (State.fetchInstr_misaligned h), ?_, ?_, fun hturn hpark hstop => ⟨fun hend => ?_, fun hend => ?_⟩⟩
  · rintro hal ⟨k, hk, hnone⟩
    exact agentStep_of_fetch_error (State.fetchInstr_noText hal (Env.fetchWord_eq_none hk hnone))
  · intro b0 b1 b2 b3 hal h0 h1 h2 h3 hd
    exact agentStep_of_fetch_error (State.fetchInstr_undecoded hal (Env.fetchWord_of_bytes h0 h1 h2 h3) hd)
  · rw [step_of_no_turn hturn (Env.running_iff.2 ⟨hstop, hend⟩), State.afterAgent_of_no_parked hpark]
  · have hctx : ∀ c ∈ s.contexts, c = s.ctx := by simp [State.contexts, hpark]
    have hrun : ∀ c ∈ s.contexts, s.env.running c = false := fun c hc => Env.running_eq_false.2 (.inr (hctx c hc ▸ hend))
    rw [step_of_none_running (State.turn_nil hturn) hrun, State.verdict_of_none_stopped fun c hc => hctx c hc ▸ hstop]

/-- Settles O4: no agent takes the turn, and the verdict looks for a fault, then for a refusal. -/
theorem outcomeOnceEveryRunHasEnded : Obligations.OutcomeOnceEveryRunHasEnded := by
  intro s ag hturn hended
  rw [step_of_none_running hturn fun c hc => Env.running_eq_false.2 (hended c hc)]
  exact ⟨fun ⟨_, hc, _, hf⟩ => State.verdict_of_fault hc hf, State.verdict_of_stopped, State.verdict_of_none_stopped⟩

/-- Settles O5: with its own stop recorded no agent can go on, so the verdict is the outcome. -/
theorem lastStopIsTheOutcome : Obligations.LastStopIsTheOutcome := by
  intro s hturn hstop hend hothers
  have hpark : ∀ p ∈ s.parked, s.env.running p.ctx = false := fun p hp => Env.running_eq_false.2 (hothers p hp)
  rw [step_of_no_turn hturn (Env.running_iff.2 ⟨hstop, hend⟩)]
  refine ⟨fun f hf => ?_, fun r hr => ⟨fun hnone => ?_, fun ⟨p, hp, f, hf⟩ => ?_⟩⟩
  · rw [hf, f.eq_memNotAdmitted, State.afterAgent, State.endRun_of_none_parked _ hpark]
    exact State.verdict_of_fault (State.mem_contexts.2 (.inl rfl)) rfl
  · rw [hr, State.afterAgent, State.endRun_of_none_parked _ hpark]
    refine State.verdict_of_refusal (fun c hc f => ?_) rfl
    rcases State.mem_contexts.1 hc with rfl | ⟨p, hp, rfl⟩
    · simp
    · exact hnone p hp f
  · rw [hr, State.afterAgent, State.endRun_of_none_parked _ hpark]
    exact State.verdict_of_fault (State.mem_contexts.2 (.inr ⟨p, hp, rfl⟩)) hf

/-- Settles O7: a final state's step is no fault, and its refusal the end of the run; any other reached state steps on. -/
theorem safeRunNeverStops : Obligations.SafeRunNeverStops := by
  intro s t hsafe hreach
  obtain ⟨hnone, hgoes⟩ := hsafe t hreach
  have hcases : (∃ u, step t = .next u) ∨ (step t = .refused .runEnded ∧ ∀ c ∈ t.contexts, t.env.endPc = some c.pc) :=
    hgoes.elim (fun hfin => (step_of_final hfin).imp_right fun he => ⟨he, hfin.2⟩) .inl
  refine ⟨hnone, ?_⟩
  obtain ⟨u, hu⟩ | ⟨he, hend⟩ := hcases
  · rw [hu]
    exact ⟨nofun, nofun⟩
  · rw [he]
    refine ⟨nofun, fun r hr => ?_⟩
    cases hr
    exact ⟨rfl, hend⟩

end Sys2Proof
end

section
/-! Which agent runs, and what a step leaves of every agent's own state (60_exceptions.md R107, R112). -/

namespace Sys2Proof.Machine

variable {s t : State}

/-! Which agent has which context. -/

theorem swapParked_isSome {ag : Nat} {me : Parked} {ps : List Parked} (h : ∃ p ∈ ps, p.id = ag) : (swapParked ag me ps).isSome = true := by
  induction ps with
  | nil => simp at h
  | cons p ps ih =>
    unfold swapParked
    split
    · rfl
    · rename_i hp
      have hrest : ∃ q ∈ ps, q.id = ag := by
        obtain ⟨q, hq, hid⟩ := h
        exact ⟨q, (List.mem_cons.1 hq).resolve_left (by rintro rfl; exact hp hid), hid⟩
      obtain ⟨⟨c, qs⟩, hsw⟩ := Option.isSome_iff_exists.1 (ih hrest)
      rw [hsw]
      rfl

theorem State.exists_parked_of_contextOf {ag : Nat} {c : Context} (h : s.contextOf ag = some c) (hne : ag ≠ s.agent) :
    ∃ p ∈ s.parked, p.id = ag ∧ p.ctx = c := by
  rw [State.contextOf, if_neg hne] at h
  obtain ⟨p, hp, hc⟩ := Option.map_eq_some_iff.1 h
  exact ⟨p, List.mem_of_find?_eq_some hp, by simpa using List.find?_some hp, hc⟩

/-- An agent that has a context becomes the executing one. -/
theorem State.switchTo_agent {ag : Nat} {c : Context} (h : s.contextOf ag = some c) : (s.switchTo ag).agent = ag := by
  unfold State.switchTo
  split
  · exact Eq.symm ‹_›
  · rename_i hne
    obtain ⟨p, hp, hid, -⟩ := State.exists_parked_of_contextOf h hne
    obtain ⟨⟨d, qs⟩, hsw⟩ := Option.isSome_iff_exists.1 (swapParked_isSome (me := ⟨s.agent, s.ctx⟩) ⟨p, hp, hid⟩)
    rw [hsw]

theorem State.contextOf_agent (s : State) : s.contextOf s.agent = some s.ctx := if_pos rfl

theorem State.switchTo_ctx (hn : (s.agent :: s.parked.map Parked.id).Nodup) {ag : Nat} {c : Context} (h : s.contextOf ag = some c) :
    (s.switchTo ag).ctx = c := by
  have hc := (s.switchTo ag).contextOf_agent
  rw [State.switchTo_contextOf hn, State.switchTo_agent h, h] at hc
  exact (Option.some.inj hc).symm

theorem State.contextOf_parked (hn : (s.agent :: s.parked.map Parked.id).Nodup) {p : Parked} (hp : p ∈ s.parked) :
    s.contextOf p.id = some p.ctx := by
  obtain ⟨hagent, hids⟩ := List.nodup_cons.1 hn
  have hne : p.id ≠ s.agent := fun he => hagent (he ▸ List.mem_map_of_mem hp)
  cases hq : s.parked.find? (fun q => q.id == p.id) with
  | none => exact absurd (List.find?_eq_none.1 hq p hp) (by simp)
  | some q =>
    have hid : q.id = p.id := by simpa using List.find?_some hq
    obtain rfl := List.inj_on_of_nodup_map hids (List.mem_of_find?_eq_some hq) hp hid
    rw [State.contextOf, if_neg hne, hq, Option.map_some]

theorem State.contextOf_congr (hagent : t.agent = s.agent) (hparked : t.parked = s.parked) {ag : Nat} (h : ag ≠ s.agent) :
    t.contextOf ag = s.contextOf ag := by
  rw [State.contextOf, State.contextOf, hagent, hparked, if_neg h, if_neg h]

theorem State.switchTo_nAgents (s : State) (ag : Nat) : (s.switchTo ag).nAgents = s.nAgents := by
  rcases s.switchTo_cases ag with e | ⟨c, xs, ys, -, hp, -, e⟩
  · rw [e]
  · simp [e, State.nAgents, hp]

/-! Which agent runs. -/

theorem State.runner_of_running {ag : Nat} {c : Context} (hc : s.contextOf ag = some c) (hr : s.env.running c = true) :
    s.runner ag = some ag := by
  simp [State.runner, hc, hr]

/-- The agent that runs is one that can take a step. -/
theorem State.contextOf_runner (hn : (s.agent :: s.parked.map Parked.id).Nodup) {ag r : Nat} (h : s.runner ag = some r) :
    ∃ c, s.contextOf r = some c ∧ s.env.running c = true := by
  obtain hc | ⟨p, hp, rfl, hr⟩ := State.runner_some h
  · exact hc
  · exact ⟨p.ctx, State.contextOf_parked hn hp, hr⟩

section
variable {ag : Nat} (hag : ∀ c, s.contextOf ag = some c → s.env.running c = false)
include hag

theorem State.any_contextOf_eq_false : (s.contextOf ag).any s.env.running = false := by
  cases hc : s.contextOf ag with
  | none => rfl
  | some c => exact hag c hc

/-- The turn of an agent that cannot take a step goes to the executing one if it can. -/
theorem State.runner_of_executing_running (hr : s.env.running s.ctx = true) : s.runner ag = some s.agent := by
  simp [State.runner, State.any_contextOf_eq_false hag, hr]

/-- Else it goes to a parked one that can. -/
theorem State.runner_of_parked_running (hr : s.env.running s.ctx = false) (hp : ∃ p ∈ s.parked, s.env.running p.ctx = true) :
    ∃ p ∈ s.parked, s.env.running p.ctx = true ∧ s.runner ag = some p.id := by
  cases hq : s.parked.find? (fun p => s.env.running p.ctx) with
  | none =>
    obtain ⟨p, hp, hpr⟩ := hp
    exact absurd hpr (List.find?_eq_none.1 hq p hp)
  | some q =>
    refine ⟨q, List.mem_of_find?_eq_some hq, by simpa using List.find?_some hq, ?_⟩
    simp [State.runner, State.any_contextOf_eq_false hag, hr, hq]

end

/-- Two turns that the same agent takes are one step. -/
theorem step_eq_of_runner {ag ag' r : Nat} {ts : List Turn} (ht : s.turns = .run ag :: ts) (h : s.runner ag = some r)
    (h' : s.runner ag' = some r) : step s = step { s with turns := .run ag' :: ts } := by
  rw [step_of_runner (State.turn_cons ht) h, step_of_runner (s := { s with turns := .run ag' :: ts }) rfl h']
  simp [State.popTurn, ht]

/-! What a step leaves of the agents' own states. -/

/-- Everything a step does to the agents' own states: nothing, or one agent that can take a step takes it, and its pc stays or goes 4 further. -/
theorem step_contexts (hn : (s.agent :: s.parked.map Parked.id).Nodup) (h : step s = .next t) :
    (∀ ag, t.contextOf ag = s.contextOf ag) ∨
      (∃ a, s.turn = .run a) ∧ ∃ c, s.contextOf t.agent = some c ∧ s.env.running c = true ∧
        (∀ ag, ag ≠ t.agent → t.contextOf ag = s.contextOf ag) ∧
        (t.ctx.pc = c.pc ∨ (c.pc.toNat % 4 = 0 ∧ t.ctx.pc.toNat = c.pc.toNat + 4)) := by
  obtain ⟨ag, a, -, rfl⟩ | ⟨a, r, i, hturn, hrun, hfetch, he⟩ | ⟨a, r, why, hturn, hrun, -, rfl, -⟩ := step_next h
  · exact .inl fun ag' => by simp [State.contextOf]
  all_goals
    obtain ⟨c, hc, hr⟩ := State.contextOf_runner hn hrun
    have hagent : (s.popTurn.switchTo r).agent = r := State.switchTo_agent hc
    have hctx : (s.popTurn.switchTo r).ctx = c := State.switchTo_ctx (s := s.popTurn) hn hc
    have hothers (ag : Nat) : (s.popTurn.switchTo r).contextOf ag = s.contextOf ag := State.switchTo_contextOf (s := s.popTurn) hn r ag
    refine .inr ⟨⟨a, hturn⟩, c, ?_⟩
  · have hst := stored_of_exec he
    have hta : t.agent = r := hst.agent.trans hagent
    obtain ⟨hal, -⟩ := State.fetchInstr_ok hfetch
    refine ⟨hta ▸ hc, hr, fun ag hne => ?_, .inr ⟨hctx ▸ hal, hctx ▸ pc_toNat_of_exec he⟩⟩
    rw [State.contextOf_congr hst.agent hst.parked (hst.agent ▸ hne), hothers]
  · refine ⟨hagent.symm ▸ hc, hr, fun ag hne => ?_, .inl (hctx ▸ rfl)⟩
    refine (State.contextOf_congr (s := s.popTurn.switchTo r) ?_ ?_ hne).trans (hothers ag) <;> rfl

end Sys2Proof.Machine

namespace Sys2Proof

open Sys2Proof.Machine

/-- Settles O3: an agent that can take a step takes its own turn, in the state that has its context in place; the turn of one that cannot is that
of the agent that runs instead. -/
theorem turnRunsNamedAgent : Obligations.TurnRunsNamedAgent := by
  intro s ag ts hn ht
  refine ⟨fun c hc hstop hend => ?_, fun hended => ?_⟩
  · have hpop : s.popTurn = { s with turns := ts } := by rw [State.popTurn, ht, List.tail_cons]
    have hstep := step_of_runner (State.turn_cons ht) (State.runner_of_running hc (Env.running_iff.2 ⟨hstop, hend⟩))
    have hctx : (s.popTurn.switchTo ag).ctx = c := State.switchTo_ctx (s := s.popTurn) hn hc
    refine ⟨s.popTurn.switchTo ag, State.switchTo_agent hc, hctx, State.switchTo_contextOf (s := s.popTurn) hn ag,
      s.popTurn.switchTo_nAgents ag, by simp, by simp, by simp, by simp [ht], by simp, by simp, fun u hu => by rw [hstep, hu]; rfl, ?_⟩
    rintro ⟨p, hp, hr⟩
    have hpr : (s.popTurn.switchTo ag).env.running p.ctx = true := by simpa using Env.running_iff.2 hr
    obtain ⟨hfault, hrefused⟩ := State.afterAgent_of_parked hp hpr
    rw [hstep]
    exact ⟨fun f hf => by rw [hf, hfault, hctx], fun r hr => by rw [hr, hrefused, hctx]⟩
  · have hag : ∀ c, s.contextOf ag = some c → s.env.running c = false := fun c hc => Env.running_eq_false.2 (hended c hc)
    refine ⟨fun hstop hend => ?_, fun hnot hother => ?_⟩
    · have hr := Env.running_iff.2 ⟨hstop, hend⟩
      exact step_eq_of_runner ht (State.runner_of_executing_running hag hr) (State.runner_of_running s.contextOf_agent hr)
    · have hctx : s.env.running s.ctx = false := by rw [← Bool.not_eq_true, Env.running_iff]; exact hnot
      obtain ⟨q, hq, hqr⟩ := hother
      obtain ⟨p, hp, hr, hrun⟩ := State.runner_of_parked_running hag hctx ⟨q, hq, Env.running_iff.2 hqr⟩
      obtain ⟨hstop, hend⟩ := Env.running_iff.1 hr
      exact ⟨p, hp, hstop, hend, step_eq_of_runner ht hrun (State.runner_of_running (State.contextOf_parked hn hp) hr)⟩

/-- Settles O6: the agent that runs is one that can take a step, and every other context is kept. -/
theorem endedAgentTakesNoStep : Obligations.EndedAgentTakesNoStep := by
  intro s t ag c hn hstep hc hended
  obtain hsame | ⟨-, d, hd, hr, hothers, -⟩ := step_contexts hn hstep
  · rw [hsame, hc]
  · have hne : ag ≠ t.agent := by
      rintro rfl
      obtain rfl : c = d := Option.some.inj (hc.symm.trans hd)
      exact absurd hr (by simp [Env.running_eq_false.2 hended])
    rw [hothers ag hne, hc]

/-- Settles O9: only the context of the agent that ran can change, and none at a settle turn. -/
theorem stepKeepsOtherAgents : Obligations.StepKeepsOtherAgents := by
  intro s t ag hn hstep hne
  obtain hsame | ⟨hturn, -, -, -, hothers, -⟩ := step_contexts hn hstep
  · exact hsame ag
  · exact hothers ag (hne hturn)

/-- Settles O44: the fetch checks the pc's alignment, the store's last check that four more fit; only the agent that ran moves. -/
theorem agentStepAdvancesPcByFour : Obligations.AgentStepAdvancesPcByFour := by
  refine ⟨fun s t h => ?_, fun s t ag c hn hstep hc => ?_⟩
  · obtain ⟨i, hfetch, he⟩ := agentStep_next h
    exact ⟨(State.fetchInstr_ok hfetch).1, pc_toNat_of_exec he⟩
  · obtain hsame | ⟨-, d, hd, -, hothers, hpc⟩ := step_contexts hn hstep
    · exact ⟨c, by rw [hsame, hc], .inl rfl⟩
    · by_cases hag : ag = t.agent
      · subst hag
        obtain rfl : c = d := Option.some.inj (hc.symm.trans hd)
        exact ⟨t.ctx, t.contextOf_agent, hpc.imp_right fun hadv => ⟨rfl, hadv⟩⟩
      · exact ⟨c, by rw [hothers ag hag, hc], .inl rfl⟩

end Sys2Proof
end

section
/-! What holds of every step and every reachable state (10_state.md R31, 20_memory.md R50, R54, 60_exceptions.md R103). -/

namespace Sys2Proof.Machine

variable {s t : State}

/-- An agent's step completes or ends its run for a reason. -/
theorem agentStep_cases (s : State) : (∃ t, agentStep s = .next t) ∨ ∃ why : Stop, agentStep s = why.outcome := by
  cases h : agentStep s with
  | next t => exact .inl ⟨t, rfl⟩
  | fault f => exact .inr ⟨.fault f, rfl⟩
  | refused r => exact .inr ⟨.refuse r, rfl⟩

theorem State.afterAgent_outcome (s : State) (why : Stop) : s.afterAgent why.outcome = s.endRun why := by cases why <;> rfl

/-- A step that goes on to no next state is the verdict of a state that meets the invariant. -/
theorem step_next_or_verdict (h : s.Inv) : (∃ t, step s = .next t) ∨ ∃ u : State, u.Inv ∧ step s = u.verdict := by
  cases hturn : s.turn with
  | settle ag a => exact .inl ⟨s.popTurn.settle ag a, by simp [step, hturn]⟩
  | run ag =>
    cases hr : s.runner ag with
    | none => exact .inr ⟨s, h, by simp [step, hturn, hr]⟩
    | some r =>
      rw [step_of_runner hturn hr]
      obtain ⟨t, ht⟩ | ⟨why, hw⟩ := agentStep_cases (s.popTurn.switchTo r)
      · exact .inl ⟨t, by rw [ht]; rfl⟩
      · rw [hw, State.afterAgent_outcome]
        obtain ⟨-, he⟩ | ⟨-, he⟩ := (s.popTurn.switchTo r).endRun_cases why
        · exact .inl ⟨_, he⟩
        · exact .inr ⟨_, (h.popTurn.switchTo r).stop (listed_of_agentStep hw), he⟩

/-- The verdict refuses for the end of the run, or for a reason that was recorded, which the invariant says is listed. -/
theorem State.Inv.verdict_refused (h : s.Inv) {r : Refusal} (hv : s.verdict = .refused r) :
    r = .runEnded ∨ (Stop.refuse r).listed = true :=
  (State.verdict_refused hv).imp_right fun ⟨c, hc, hstop⟩ => (h.contexts c hc).listed _ hstop

/-! Addresses that no store may write. -/

theorem Env.storable_eq_false {e : Env} {a : Nat}
    (h : Memory.read e.text a ≠ none ∨ ∀ r ∈ e.memMap, ¬ (r.base ≤ a ∧ a < r.base + r.size)) : e.storable a = false := by
  rcases h with h | h
  · have htext : e.inText a = true := Option.isSome_iff_ne_none.2 h
    simp [Env.storable, htext]
  · have hmap : e.inMap a = false := by
      rw [← Bool.not_eq_true, Env.inMap_iff]
      rintro ⟨r, hr, hin⟩
      exact h r hr hin
    simp [Env.storable, hmap]

section
variable {a : Nat} (hns : s.env.storable a = false)
include hns

theorem State.Inv.read_settle (h : s.Inv) (ag x : Nat) : Memory.read (s.settle ag x).mem a = Memory.read s.mem a := by
  rcases s.settle_cases ag x with e | ⟨xs, p, ys, hp, -, -, -, e⟩
  · rw [e]
  · have hnone : Memory.read (s.env.settling x p.cells) a = none := by
      cases hr : Memory.read (s.env.settling x p.cells) a with
      | none => rfl
      | some b =>
        have hst := (h.pendPlaced p (by simp [hp]) _ (Env.mem_settling (Memory.mem_of_read hr))).2
        rw [hns] at hst
        cases hst
    simp only [e, Memory.read_writeAll, hnone, Option.none_or]

theorem read_mem_of_exec {i : Instr} (he : exec i s = .next t) : Memory.read t.mem a = Memory.read s.mem a := by
  have hst := stored_of_exec he
  cases ha : s.alone with
  | false => rw [(hst.waits ha).1]
  | true =>
    refine (hst.lone ha).2.2 a ?_
    by_contra hin
    obtain ⟨k, hk⟩ := Nat.exists_eq_add_of_le (show (s.eaOf i).toNat ≤ a by omega)
    have hcan := ((canStore_of_exec he).storable (k := k) (by omega)).2
    rw [← hk, hns] at hcan
    cases hcan

end

/-! The load of one word (log 19). -/

theorem read_loadText_wordBytes (m : Memory) (a : Nat) (w : InsnWord) :
    Memory.read (loadText m a (wordBytes w)) a = some (w.extractLsb' 24 8) ∧
      Memory.read (loadText m a (wordBytes w)) (a + 1) = some (w.extractLsb' 16 8) ∧
      Memory.read (loadText m a (wordBytes w)) (a + 2) = some (w.extractLsb' 8 8) ∧
      Memory.read (loadText m a (wordBytes w)) (a + 3) = some (w.extractLsb' 0 8) := by
  simp [wordBytes, loadText, Nat.add_assoc]

theorem State.placeWord_pc_toNat (s : State) (w : InsnWord) :
    (s.placeWord w).ctx.pc.toNat = s.ctx.pc.toNat - s.ctx.pc.toNat % 4 := by
  have hlt := s.ctx.pc.isLt
  simp only [State.placeWord, Config.insnBytes, BitVec.toNat_ofNat]
  omega

/-- The placed word is fetched. -/
theorem State.placeWord_fetchWord (s : State) (w : InsnWord) :
    (s.placeWord w).env.fetchWord (s.placeWord w).ctx.pc.toNat = some w := by
  obtain ⟨h0, h1, h2, h3⟩ := read_loadText_wordBytes s.env.text (s.placeWord w).ctx.pc.toNat w
  rw [Env.fetchWord_of_bytes (e := (s.placeWord w).env) h0 h1 h2 h3, wordOfBytes_wordBytes]

theorem State.placeWord_running (s : State) (w : InsnWord) : (s.placeWord w).env.running (s.placeWord w).ctx = true := by
  refine Env.running_iff.2 ⟨rfl, ?_⟩
  simp only [State.placeWord]
  split
  · simp
  · assumption

/-- The step after the load is the placed instruction's. -/
theorem step_placeWord {w : InsnWord} {i : Instr} (hd : decode w = .instr i) :
    step (s.placeWord w) = (s.placeWord w).afterAgent (exec i (s.placeWord w)) := by
  have hal : (s.placeWord w).ctx.pc.toNat % 4 = 0 := by
    rw [State.placeWord_pc_toNat]
    omega
  rw [step_of_no_turn rfl (s.placeWord_running w), agentStep_of_fetch (State.fetchInstr_decoded hal (s.placeWord_fetchWord w) hd)]

end Sys2Proof.Machine

namespace Sys2Proof

open Sys2Proof.Machine

/-- What the bits of a table row decode to, the placed word decodes to. -/
theorem decode_of_decodeTableWord {nbits w : Nat} {i : Instr} (h : decodeTableWord nbits w = some i) :
    decode (BitVec.ofNat 32 (w % 2 ^ nbits)) = .instr i := by
  unfold decodeTableWord at h
  rw [decodeBytes_wordBytes] at h
  split at h
  · rename_i hd
    rw [hd, Option.some.inj h]
  · cases h
  · cases h

/-- Settles O10: the load puts the word where the next fetch reads it, and nothing stops the agent before. -/
theorem placedWordRuns : Obligations.PlacedWordRuns := by
  intro s nbits w i h
  have hstep : step (s.withFetchWord nbits w) = (s.withFetchWord nbits w).afterAgent (exec i (s.withFetchWord nbits w)) :=
    step_placeWord (decode_of_decodeTableWord h)
  rw [hstep]
  exact ⟨fun t he => by rw [he]; rfl, fun hp => State.afterAgent_of_no_parked (s := s.withFetchWord nbits w) hp _⟩

/-- Settles O20: a step that stops is a verdict, whose reasons are recorded ones; there is one fault. -/
theorem stopsForListedReasonsOnly : Obligations.StopsForListedReasonsOnly := by
  refine ⟨fun s hinv => ⟨fun f _ => f.eq_memNotAdmitted, fun r hr => ?_⟩, fun i s => ⟨fun f _ => f.eq_memNotAdmitted, fun r => exec_refused⟩⟩
  obtain ⟨t, ht⟩ | ⟨u, hu, hv⟩ := step_next_or_verdict hinv
  · rw [ht] at hr
    cases hr
  · obtain rfl | hlisted := hu.verdict_refused (hv.symm.trans hr)
    · exact List.mem_cons_self
    · exact List.mem_cons_of_mem _ (Stop.listed_refuse.1 hlisted)

/-- Settles O41: an empty machine with one agent. -/
theorem resetMeetsInvariant : Obligations.ResetMeetsInvariant where
  env :=
    { textWf := List.Pairwise.nil
      textPlaced := nofun
      mapPlaced := by decide
      endAligned := nofun
      granule := by decide }
  memWf := List.Pairwise.nil
  memPlaced := nofun
  pendPlaced := nofun
  pendWf := nofun
  resvSorted := List.Pairwise.nil
  agents := by decide
  contexts _ hc := List.mem_singleton.1 hc ▸ ⟨by decide, nofun⟩

/-- Settles O42: no operation a step is made of touches the parameters. -/
theorem stepKeepsParameters : Obligations.StepKeepsParameters := by
  intro s t hstep
  obtain ⟨ag, a, -, rfl⟩ | ⟨-, r, i, -, -, -, he⟩ | ⟨-, r, why, -, -, -, rfl, -⟩ := step_next hstep
  · simp
  · rw [(stored_of_exec he).env]
    simp
  · simp

/-- Settles O43: the bytes that reach memory are those of an admitted store, or of a waiting one, which the invariant says are storable. -/
theorem textAndUnmappedNeverWritten : Obligations.TextAndUnmappedNeverWritten := by
  intro s t a hinv hstep ha
  have hns := Env.storable_eq_false ha
  obtain ⟨ag, x, -, rfl⟩ | ⟨-, r, i, -, -, -, he⟩ | ⟨-, r, why, -, -, -, rfl, -⟩ := step_next hstep
  · exact State.Inv.read_settle (s := s.popTurn) hns hinv.popTurn ag x
  · have hmem := read_mem_of_exec (a := a) (by simpa using hns) he
    simpa using hmem
  · simp

end Sys2Proof
end
